-- ==== Sys2Proof/Word.lean ====
section
/-! DEFINITION. The machine's word and register-index types (spec 00_scope.md R4, section 4). -/

namespace Sys2Proof

/-- A memory cell, a register, an address or the program counter: an unsigned 8-bit value whose arithmetic
wraps modulo 256 (00_scope.md R4 and section 4: `+8`, `-8`, `*8`; 10_state.md R13, R16). -/
abbrev Byte := BitVec 8

/-- A resolved register index 0..7 (10_state.md R11). -/
abbrev Reg := Fin 8

end Sys2Proof
end

