-- ==== Sys2Proof/Syntax.lean ====
section
/-! DEFINITION. The 14 instructions of spec/opcode_table.json, with their operand bytes as fetched. -/

namespace Sys2Proof

/-- The closed set of 14 mnemonics (00_scope.md R2). An opcode is what the opcode map gives a byte value to. -/
inductive Opcode where
  | ldi | prn | add | mlt | push | pop | call | ret | cmp | jmp | jeq | jne | hlt | nop
deriving DecidableEq, Repr

/-- All 14, in the order of 30_encoding.md R53's table. -/
def Opcode.all : List Opcode :=
  [.ldi, .prn, .add, .mlt, .push, .pop, .call, .ret, .cmp, .jmp, .jeq, .jne, .hlt, .nop]

/-- A register operand as the byte that stands in memory. Its low three bits select the register
(10_state.md R14); they are resolved when the instruction executes (40_fetch_decode_loop.md R73). DESIGN CHOICE
(safe, log 20): the instruction keeps the whole byte, so no bit of an encoding is lost. -/
abbrev RegOperand := Byte

/-- One constructor per row of spec/opcode_table.json. `a` is operand A and `b` operand B
(30_encoding.md R51): register operands, except LDI's second, a literal (R55). -/
inductive Instr where
  /-- LDI A,imm: format F2I (41_data_movement.md R85). -/
  | ldi (a : RegOperand) (imm : Byte)
  /-- PRN A: format F1 (41_data_movement.md R86). -/
  | prn (a : RegOperand)
  /-- ADD A,B: format F2R (42_alu.md R91). -/
  | add (a b : RegOperand)
  /-- MLT A,B: format F2R (42_alu.md R92). -/
  | mlt (a b : RegOperand)
  /-- PUSH A: format F1 (43_stack.md R101). -/
  | push (a : RegOperand)
  /-- POP A: format F1 (43_stack.md R102). -/
  | pop (a : RegOperand)
  /-- CALL A: format F1 (44_control_transfer.md R106). -/
  | call (a : RegOperand)
  /-- RET: format F0 (44_control_transfer.md R107). -/
  | ret
  /-- CMP A,B: format F2R (42_alu.md R93). -/
  | cmp (a b : RegOperand)
  /-- JMP A: format F1 (44_control_transfer.md R108). -/
  | jmp (a : RegOperand)
  /-- JEQ A: format F1 (44_control_transfer.md R109). -/
  | jeq (a : RegOperand)
  /-- JNE A: format F1 (44_control_transfer.md R110). -/
  | jne (a : RegOperand)
  /-- HLT: format F0 (45_system.md R115). -/
  | hlt
  /-- NOP: format F0 (45_system.md R116). -/
  | nop
deriving DecidableEq, Repr

/-- The mnemonic of an instruction, its operands left out. -/
def Instr.opcode : Instr → Opcode
  | .ldi _ _ => .ldi
  | .prn _ => .prn
  | .add _ _ => .add
  | .mlt _ _ => .mlt
  | .push _ => .push
  | .pop _ => .pop
  | .call _ => .call
  | .ret => .ret
  | .cmp _ _ => .cmp
  | .jmp _ => .jmp
  | .jeq _ => .jeq
  | .jne _ => .jne
  | .hlt => .hlt
  | .nop => .nop

/-- How many operand bytes each mnemonic takes (30_encoding.md R51, R53). -/
def Opcode.operandCount : Opcode → Nat
  | .ldi => 2
  | .prn => 1
  | .add => 2
  | .mlt => 2
  | .push => 1
  | .pop => 1
  | .call => 1
  | .ret => 0
  | .cmp => 2
  | .jmp => 1
  | .jeq => 1
  | .jne => 1
  | .hlt => 0
  | .nop => 0

/-- Length in bytes: N = 1 + the number of operand bytes (30_encoding.md R50, R56). -/
def Instr.length (i : Instr) : Nat := 1 + i.opcode.operandCount

/-- The three bytes a step fetches: the opcode byte and the two bytes after it (40_fetch_decode_loop.md R71).
They live for one step only and are no part of the state (10_state.md R24). -/
structure Fetched where
  op : Byte
  a : Byte
  b : Byte
deriving DecidableEq, Repr

/-- The fetched bytes in ascending address order (20_memory.md R33). -/
def Fetched.toList (f : Fetched) : List Byte := [f.op, f.a, f.b]

end Sys2Proof
end

