-- ==== Sys2Proof/Config.lean ====
section
/-! DEFINITION. What is fixed for the machine and is no state: the parameters of 00_scope.md R4 and R5. -/

namespace Sys2Proof

/-- The parameter OPCODE_MAP (00_scope.md R5, 92_eei_decisions.md D1): which byte stands for each mnemonic. Everything
that decodes takes the map as an argument; its default is `opcodeMap` in Decode.lean. -/
abbrev OpcodeMap := Opcode → Byte

/-- An opcode map gives distinct mnemonics distinct bytes (30_encoding.md R53: "pairwise distinct",
"an injective function from the 14 mnemonics to bytes"). -/
def OpcodeMap.Injective (m : OpcodeMap) : Prop := ∀ c d : Opcode, m c = m d → c = d

/-- SP_INDEX: register 7 is the stack pointer (00_scope.md R4, 10_state.md R12). -/
def Config.spIndex : Reg := 7

/-- SP_RESET (00_scope.md R4, 10_state.md R25). -/
def Config.spReset : Byte := 0xF4

/-- PC_RESET (00_scope.md R4, 10_state.md R25). -/
def Config.pcReset : Byte := 0x00

/-- IMAGE_BASE: the loader writes the image from here (00_scope.md R4, 70_reset_and_hazards.md R141). -/
def Config.imageBase : Byte := 0x00

/-- MEM_SIZE in cells (00_scope.md R4, 20_memory.md R30). -/
abbrev Config.memSize : Nat := 256

/-- E_RESET (00_scope.md R5, 10_state.md R25). DESIGN CHOICE (unsafe, log 6): the value is the spec's own decision
D6; its source states none. -/
def Config.eReset : Bool := false

end Sys2Proof
end

