-- ==== Sys2Proof/WellFormed.lean ====
section
/-! DEFINITION. Well-formed instructions: the recommended premise of 30_encoding.md R62. The hardware does not
require it; every instruction runs, well-formed or not. -/

namespace Sys2Proof

/-- A register operand byte in 0..7: bits 7 to 3 are 0, as a well-formed program writes them (30_encoding.md R52, R62). -/
def RegOperand.wellFormed (a : RegOperand) : Bool := decide (a.toNat < 8)

/-- Every register operand byte of the instruction is in 0..7 (30_encoding.md R62). LDI's literal is
unrestricted (R55). Under this premise the two register-index policies of 92_eei_decisions.md D3 agree. -/
def Instr.wellFormed : Instr → Bool
  | .ldi a _ => RegOperand.wellFormed a
  | .prn a => RegOperand.wellFormed a
  | .add a b => RegOperand.wellFormed a && RegOperand.wellFormed b
  | .mlt a b => RegOperand.wellFormed a && RegOperand.wellFormed b
  | .push a => RegOperand.wellFormed a
  | .pop a => RegOperand.wellFormed a
  | .call a => RegOperand.wellFormed a
  | .ret => true
  | .cmp a b => RegOperand.wellFormed a && RegOperand.wellFormed b
  | .jmp a => RegOperand.wellFormed a
  | .jeq a => RegOperand.wellFormed a
  | .jne a => RegOperand.wellFormed a
  | .hlt => true
  | .nop => true

/-- A register operand byte with the ignored bits 7 to 3 cleared (30_encoding.md R52: "write 0"). -/
def RegOperand.clean (a : RegOperand) : RegOperand := a &&& 0b00000111

/-- The instruction with the ignored bits of its register operand bytes cleared. -/
def Instr.clean : Instr → Instr
  | .ldi a imm => .ldi (RegOperand.clean a) imm
  | .prn a => .prn (RegOperand.clean a)
  | .add a b => .add (RegOperand.clean a) (RegOperand.clean b)
  | .mlt a b => .mlt (RegOperand.clean a) (RegOperand.clean b)
  | .push a => .push (RegOperand.clean a)
  | .pop a => .pop (RegOperand.clean a)
  | .call a => .call (RegOperand.clean a)
  | .ret => .ret
  | .cmp a b => .cmp (RegOperand.clean a) (RegOperand.clean b)
  | .jmp a => .jmp (RegOperand.clean a)
  | .jeq a => .jeq (RegOperand.clean a)
  | .jne a => .jne (RegOperand.clean a)
  | .hlt => .hlt
  | .nop => .nop

end Sys2Proof
end

