-- ==== Sys2Proof/Decode.lean ====
section
/-! DEFINITION. The opcode map, the decoder (30_encoding.md R50 to R58, 40_fetch_decode_loop.md R72) and the
encoder written from the same formats. -/

namespace Sys2Proof

/-- The default of OPCODE_MAP (30_encoding.md R53). PRESUMED (unsafe, log 1): the spec takes the 14 values from
general knowledge of the LS-8 family; its source gives none. -/
def opcodeMap : OpcodeMap
  | .ldi => 0b10000010
  | .prn => 0b01000111
  | .add => 0b10100000
  | .mlt => 0b10100010
  | .push => 0b01000101
  | .pop => 0b01000110
  | .call => 0b01010000
  | .ret => 0b00010001
  | .cmp => 0b10100111
  | .jmp => 0b01010100
  | .jeq => 0b01010101
  | .jne => 0b01010110
  | .hlt => 0b00000001
  | .nop => 0b00000000

/-- Why the decoder refuses: the one reason of 30_encoding.md R57, with the offending byte. -/
inductive DecodeReject where
  /-- The opcode byte is none of the 14 values. The step then raises DecodeError (60_exceptions.md R121). -/
  | unknownOpcode (op : Byte)
deriving DecidableEq, Repr

/-- "`op` is looked up in the opcode map" (40_fetch_decode_loop.md R72): the byte is matched whole (30_encoding.md R52). -/
def OpcodeMap.lookup (m : OpcodeMap) (op : Byte) : Option Opcode := Opcode.all.find? (fun c => m c == op)

/-- The instruction of a mnemonic, with operand A at the second and operand B at the third byte; operand
positions the mnemonic does not use are ignored (30_encoding.md R51, R58). -/
def Opcode.withOperands (c : Opcode) (a b : Byte) : Instr :=
  match c with
  | .ldi => .ldi a b
  | .prn => .prn a
  | .add => .add a b
  | .mlt => .mlt a b
  | .push => .push a
  | .pop => .pop a
  | .call => .call a
  | .ret => .ret
  | .cmp => .cmp a b
  | .jmp => .jmp a
  | .jeq => .jeq a
  | .jne => .jne a
  | .hlt => .hlt
  | .nop => .nop

/-- Decode the three fetched bytes under an opcode map (40_fetch_decode_loop.md R72). Total: every byte triple is
an instruction or is rejected by name, and no operand byte is ever illegal (30_encoding.md R57). -/
def decodeWith (m : OpcodeMap) (f : Fetched) : Except DecodeReject Instr :=
  match m.lookup f.op with
  | some c => .ok (c.withOperands f.a f.b)
  | none => .error (.unknownOpcode f.op)

/-- The decoder of the machine with the default opcode map. -/
def decode (f : Fetched) : Except DecodeReject Instr := decodeWith opcodeMap f

/-- The operand bytes of an instruction, operand A first (30_encoding.md R51). -/
def Instr.operands : Instr → List Byte
  | .ldi a imm => [a, imm]
  | .prn a => [a]
  | .add a b => [a, b]
  | .mlt a b => [a, b]
  | .push a => [a]
  | .pop a => [a]
  | .call a => [a]
  | .ret => []
  | .cmp a b => [a, b]
  | .jmp a => [a]
  | .jeq a => [a]
  | .jne a => [a]
  | .hlt => []
  | .nop => []

/-- The bytes of an instruction in ascending address order (30_encoding.md R50, R51). -/
def encodeWith (m : OpcodeMap) (i : Instr) : List Byte := m i.opcode :: i.operands

/-- The encoder of the machine with the default opcode map. -/
def encode (i : Instr) : List Byte := encodeWith opcodeMap i

/-- Byte `k` of a table word: bits 8k+7 to 8k, the first byte of the instruction being the least significant. -/
def tableByte (nbits w k : Nat) : Byte := BitVec.ofNat 8 (w % 2 ^ nbits / 256 ^ k)

/-- The three bytes of a table word of `nbits` bits; the bits above `nbits` are 0. -/
def tableBytes (nbits w : Nat) : Fetched :=
  { op := tableByte nbits w 0, a := tableByte nbits w 1, b := tableByte nbits w 2 }

/-- What the decoder reads from an instruction whose bits, numbered as spec/opcode_table.json numbers them, are `w`. -/
def decodeTableWord (nbits w : Nat) : Option Instr :=
  match decode (tableBytes nbits w) with
  | .ok i => some i
  | .error _ => none

end Sys2Proof
end

