-- ==== Sys2Proof/Machine/State.lean ====
section
/-! DEFINITION. The whole state of one machine instance (10_state.md R10), its reset value (R25), and the reasons
a step can stop. -/

namespace Sys2Proof.Machine

/-- The 256 cells of MEM (10_state.md R22) as the list of the cells that do not hold 0x00, by rising address:
the canonical form `Memory.wf` of Ops.lean. An unlisted cell reads as its reset value 0x00 (R25; log 22). -/
abbrev Memory := List Host.Cell

/-- What a decode error records: `DecodeError(addr, opcode)` (10_state.md R20, 60_exceptions.md R121). -/
structure DecodeError where
  /-- The address of the offending opcode byte. -/
  addr : Byte
  /-- The byte itself. -/
  opcode : Byte
deriving DecidableEq, Repr

/-- The state: exactly the tuple of 10_state.md R10. -/
structure State where
  /-- `MEM`: program, data and stack together (10_state.md R22, 20_memory.md R30). -/
  mem : Memory
  /-- `x[0..7]`: the general registers R0 to R7; R7 is the stack pointer (10_state.md R11, R12). -/
  x : Vector Byte 8
  /-- `pc`: the address of the next instruction to fetch (10_state.md R15, R16). -/
  pc : Byte
  /-- `E`: the Equal flag (10_state.md R17). -/
  e : Bool
  /-- `running`: false is the terminal state "halted" (10_state.md R19). -/
  running : Bool
  /-- `fault`: the latch a decode error fills (10_state.md R20). -/
  fault : Option DecodeError
  /-- `out`: everything PRN has emitted so far, oldest first (10_state.md R21). -/
  out : List Byte
deriving DecidableEq, Repr

/-- Why a step stops the machine. -/
inductive Fault where
  /-- Raised by `step` alone, exactly when `running` is false: the engine is in its terminal state and "takes no step,
  ever" (40_fetch_decode_loop.md R70). No instruction raises it. DESIGN CHOICE (log 14), safe: no step is invented. -/
  | halted
deriving DecidableEq, Repr

/-- Why a step has no meaning. -/
inductive Refusal where
  /-- For an instruction whose meaning is not written. No arm of `exec` raises it: all 14 have their meaning. Safe. -/
  | notModelled (mnemonic : String)
deriving DecidableEq, Repr

/-- The state after reset, before the loader has run (10_state.md R25, 70_reset_and_hazards.md R140). `e` is the spec's
own decision D6 (DESIGN CHOICE, unsafe, log 6). -/
def State.reset : State where
  mem := []
  x := #v[0x00, 0x00, 0x00, 0x00, 0x00, 0x00, 0x00, Config.spReset]
  pc := Config.pcReset
  e := Config.eReset
  running := true
  fault := none
  out := []

end Sys2Proof.Machine
end

