-- ==== Sys2Proof/Machine/Ops.lean ====
section
/-! DEFINITION. The named operations over memory, registers, the program counter and the control state, and taking the
one exception of the machine. -/

namespace Sys2Proof.Machine

/-! ## Memory -/

/-- What a cell that is not listed reads as: the reset contents of memory (10_state.md R22, R25). -/
def Memory.unlisted : Byte := 0x00

/-- The canonical form: addresses strictly rising, all below 256, no entry equal to what an unlisted cell reads as. -/
abbrev Memory.wf (m : Memory) : Prop :=
  m.Pairwise (fun c d => c.1 < d.1) ∧ ∀ c ∈ m, c.1 < Config.memSize ∧ c.2 ≠ Memory.unlisted

/-- `MemRead(addr, 1)` (20_memory.md R31). The address is a byte, so it is always one of the 256 cells (R32;
DESIGN CHOICE, unsafe, log 2: wrap is the spec's own decision D2). -/
def Memory.read (m : Memory) (addr : Byte) : Byte :=
  match m with
  | [] => Memory.unlisted
  | c :: rest => if c.1 = addr.toNat then c.2 else Memory.read rest addr

/-- The memory without the entries of one address: that cell reads as `Memory.unlisted` then. -/
def Memory.drop (m : Memory) (addr : Byte) : Memory := m.filter (fun c => c.1 ≠ addr.toNat)

/-- Add an entry before the first entry of a higher address. -/
def Memory.insert (m : Memory) (addr v : Byte) : Memory :=
  match m with
  | [] => [(addr.toNat, v)]
  | c :: rest => if addr.toNat < c.1 then (addr.toNat, v) :: c :: rest else c :: Memory.insert rest addr v

/-- `MemWrite(addr, 1, v)` (20_memory.md R31): that cell and no other. Writing what an unlisted cell reads as removes the
entry, which keeps the canonical form. -/
def Memory.write (m : Memory) (addr v : Byte) : Memory :=
  if v = Memory.unlisted then m.drop addr else (m.drop addr).insert addr v

/-- `MemRead(addr, 1)` in a state. -/
def State.readMem (s : State) (addr : Byte) : Byte := s.mem.read addr

/-- `MemWrite(addr, 1, v)` in a state: "No side effects beyond the mutated cell" (20_memory.md R31). -/
def State.writeMem (s : State) (addr v : Byte) : State := { s with mem := s.mem.write addr v }

/-- Write a byte sequence at successive addresses, wrapping modulo 256 (20_memory.md R32, R33). -/
def State.writeBytes (s : State) (addr : Byte) (bytes : List Byte) : State :=
  match bytes with
  | [] => s
  | v :: rest => (s.writeMem addr v).writeBytes (addr + 1) rest

/-! ## Registers -/

/-- `get(index)`: `x[r]` (10_state.md R11). -/
def State.getReg (s : State) (r : Reg) : Byte := s.x[r]

/-- `set(index, value)`: `x[r] <- v` (10_state.md R11). No register is hardwired. -/
def State.setReg (s : State) (r : Reg) (v : Byte) : State := { s with x := s.x.set r v }

/-- `SP`, a synonym for `x[7]` (00_scope.md section 4, 10_state.md R12). -/
def State.sp (s : State) : Byte := s.getReg Config.spIndex

/-- `x[7] <- x[7] -8 1`, the first half of a push; 0x00 becomes 0xFF (43_stack.md R100, R101; R103: no limit is checked,
DESIGN CHOICE, unsafe, log 10). -/
def State.decSp (s : State) : State := s.setReg Config.spIndex (s.sp - 1)

/-- `x[7] <- x[7] +8 1`, the second half of a pop; 0xFF becomes 0x00 (43_stack.md R100, R102). -/
def State.incSp (s : State) : State := s.setReg Config.spIndex (s.sp + 1)

/-- `MemRead(x[7], 1)`: the cell on top of the stack (43_stack.md R100). -/
def State.loadTop (s : State) : Byte := s.readMem s.sp

/-- `MemWrite(x[7], 1, v)`: the cell on top of the stack (43_stack.md R100). -/
def State.storeTop (s : State) (v : Byte) : State := s.writeMem s.sp v

/-! ## Program counter -/

/-- `pc <- t` for a control transfer (44_control_transfer.md R105). -/
def State.jump (s : State) (t : Byte) : State := { s with pc := t }

/-- `pc <- pc +8 n` for an instruction of `n` bytes that does not transfer control (40_fetch_decode_loop.md R74). The pc is
8 bits and wraps (10_state.md R16; DESIGN CHOICE, safe, log 4). -/
def State.advance (s : State) (n : Byte) : State := s.jump (s.pc + n)

/-- The address after a two-byte instruction at `pc`: the fall-through of JEQ and JNE and the return address of CALL
(44_control_transfer.md R106, R109, R110). -/
def State.afterTwoBytes (s : State) : Byte := s.pc + 2

/-! ## Flag, output and run state -/

/-- `E <- v` (10_state.md R17). -/
def State.setE (s : State) (v : Bool) : State := { s with e := v }

/-- `emit(v)`: append `v` to `out` (10_state.md R21). The sink always accepts (DESIGN CHOICE, unsafe, log 8: the spec's own
decision D8). -/
def State.emit (s : State) (v : Byte) : State := { s with out := s.out ++ [v] }

/-- `running <- 0` (10_state.md R19): the terminal state. -/
def State.halt (s : State) : State := { s with running := false }

/-! ## Fetch and the one exception -/

/-- The three fetch reads at the start of a step (40_fetch_decode_loop.md R71): `pc` is not advanced and nothing changes. -/
def State.fetch (s : State) : Fetched :=
  { op := s.readMem s.pc, a := s.readMem (s.pc + 1), b := s.readMem (s.pc + 2) }

/-- `raise DecodeError(addr, opcode)` (60_exceptions.md R121): the engine halts and the latch takes the report. `pc`, the
registers, memory, `E` and `out` stay; nothing is saved and there is no handler (R126). There is no return from it (R127).
DESIGN CHOICE (unsafe, log 7): what stays unchanged is the spec's own decision D7. -/
def State.raiseDecodeError (s : State) (addr opcode : Byte) : State :=
  { s.halt with fault := some { addr := addr, opcode := opcode } }

end Sys2Proof.Machine
end

