-- ==== Sys2Proof/Machine/Flags.lean ====
section
/-! DEFINITION. The ALU's results and its one flag computation (42_alu.md). There is no other flag: no carry, overflow,
zero, sign, Greater or Less (10_state.md R18; DESIGN CHOICE, safe, log 5). -/

namespace Sys2Proof.Machine

/-- `a +8 b`: the true sum reduced modulo 256 (42_alu.md R90, R91). -/
def add8 (a b : Byte) : Byte := a + b

/-- `a *8 b`: the low byte of the 16-bit product (42_alu.md R90, R92). -/
def mul8 (a b : Byte) : Byte := a * b

/-- The Equal flag of a comparison: 1 if the two bytes are equal, else 0 (42_alu.md R93). -/
def equalFlag (a b : Byte) : Bool := decide (a = b)

end Sys2Proof.Machine
end

