-- ==== Sys2Proof/Machine/Operands.lean ====
section
/-! DEFINITION. The two operand forms: a register operand byte and LDI's literal (30_encoding.md R55). -/

namespace Sys2Proof.Machine

/-- `ridx(b) = b[2:0]`, that is `b mod 8`: the register an operand byte selects; bits 7 to 3 are ignored (10_state.md R14, 30_encoding.md R52).
DESIGN CHOICE (unsafe, log 3): wrapping an index above 7 is the spec's own decision D3. -/
def ridx (b : RegOperand) : Reg := Fin.ofNat 8 b.toNat

/-- `x[ridx(a)]`: the value of a register operand (40_fetch_decode_loop.md R73). -/
def State.regOperand (s : State) (a : RegOperand) : Byte := s.getReg (ridx a)

/-- `x[ridx(a)] <- v`: write a register operand (40_fetch_decode_loop.md R73). -/
def State.setRegOperand (s : State) (a : RegOperand) (v : Byte) : State := s.setReg (ridx a) v

/-- The literal operand of LDI: the byte as it stands, not sign-extended, scaled or shifted (30_encoding.md R55). -/
def immediate (b : Byte) : Byte := b

end Sys2Proof.Machine
end

