-- ==== Sys2Proof/Machine/Alu.lean ====
section
/-! DEFINITION. ADD, MLT and CMP (42_alu.md). Both sources are read before the destination is written. -/

namespace Sys2Proof.Machine

/-- ADD (42_alu.md R91): `x[ra] <- x[ra] +8 x[rb]; pc <- pc +8 3`. -/
def execAdd (a b : RegOperand) (s : State) : Host.Outcome State Fault Refusal :=
  .next ((s.setRegOperand a (add8 (s.regOperand a) (s.regOperand b))).advance 3)

/-- MLT (42_alu.md R92): `x[ra] <- x[ra] *8 x[rb]; pc <- pc +8 3`. -/
def execMlt (a b : RegOperand) (s : State) : Host.Outcome State Fault Refusal :=
  .next ((s.setRegOperand a (mul8 (s.regOperand a) (s.regOperand b))).advance 3)

/-- CMP (42_alu.md R93): `E <- 1 if x[ra] = x[rb] else 0; pc <- pc +8 3`. -/
def execCmp (a b : RegOperand) (s : State) : Host.Outcome State Fault Refusal :=
  .next ((s.setE (equalFlag (s.regOperand a) (s.regOperand b))).advance 3)

end Sys2Proof.Machine
end

