-- ==== Sys2Proof/Machine/ControlTransfer.lean ====
section
/-! DEFINITION. CALL, RET, JMP, JEQ and JNE (44_control_transfer.md). Targets are absolute and come from a register or
the stack (R105). -/

namespace Sys2Proof.Machine

/-- The state of CALL after its push and before its transfer: SP decremented, the return address `pc +8 2` on top. -/
def State.pushReturn (s : State) : State := s.decSp.storeTop s.afterTwoBytes

/-- CALL (44_control_transfer.md R106): push the return address, then `pc <- x[ra]`, with `x[ra]` read after the push
(DESIGN CHOICE, unsafe, log 9: the spec's own decision D9 for operand R7). -/
def execCall (a : RegOperand) (s : State) : Host.Outcome State Fault Refusal :=
  .next (s.pushReturn.jump (s.pushReturn.regOperand a))

/-- RET (44_control_transfer.md R107): `t <- MemRead(x[7], 1); x[7] <- x[7] +8 1; pc <- t`. -/
def execRet (s : State) : Host.Outcome State Fault Refusal :=
  .next (s.incSp.jump s.loadTop)

/-- JMP (44_control_transfer.md R108): `pc <- x[ra]`. -/
def execJmp (a : RegOperand) (s : State) : Host.Outcome State Fault Refusal :=
  .next (s.jump (s.regOperand a))

/-- The target of a conditional jump: the register if the condition holds, else the address after the two-byte
instruction (44_control_transfer.md R109, R110). -/
def State.branchTarget (s : State) (taken : Bool) (a : RegOperand) : Byte :=
  if taken then s.regOperand a else s.afterTwoBytes

/-- JEQ (44_control_transfer.md R109): `if E = 1 then pc <- x[ra] else pc <- pc +8 2`. -/
def execJeq (a : RegOperand) (s : State) : Host.Outcome State Fault Refusal :=
  .next (s.jump (s.branchTarget s.e a))

/-- JNE (44_control_transfer.md R110): `if E = 0 then pc <- x[ra] else pc <- pc +8 2`. -/
def execJne (a : RegOperand) (s : State) : Host.Outcome State Fault Refusal :=
  .next (s.jump (s.branchTarget (!s.e) a))

end Sys2Proof.Machine
end

