-- ==== Sys2Proof/Machine/DataMovement.lean ====
section
/-! DEFINITION. LDI and PRN (41_data_movement.md). -/

namespace Sys2Proof.Machine

/-- LDI (41_data_movement.md R85): `x[ra] <- imm; pc <- pc +8 3`. -/
def execLdi (a : RegOperand) (imm : Byte) (s : State) : Host.Outcome State Fault Refusal :=
  .next ((s.setRegOperand a (immediate imm)).advance 3)

/-- PRN (41_data_movement.md R86): `emit(x[ra]); pc <- pc +8 2`. -/
def execPrn (a : RegOperand) (s : State) : Host.Outcome State Fault Refusal :=
  .next ((s.emit (s.regOperand a)).advance 2)

end Sys2Proof.Machine
end

