-- ==== Sys2Proof/Machine/Stack.lean ====
section
/-! DEFINITION. PUSH and POP (43_stack.md). Each statement reads the state the one before it left
(40_fetch_decode_loop.md R75; DESIGN CHOICE, unsafe, log 9: the spec's own decision D9 for operand R7). -/

namespace Sys2Proof.Machine

/-- PUSH (43_stack.md R101): `x[7] <- x[7] -8 1; MemWrite(x[7], 1, x[ra]); pc <- pc +8 2`, with `x[ra]` read after the
decrement. -/
def execPush (a : RegOperand) (s : State) : Host.Outcome State Fault Refusal :=
  .next ((s.decSp.storeTop (s.decSp.regOperand a)).advance 2)

/-- POP (43_stack.md R102): `x[ra] <- MemRead(x[7], 1); x[7] <- x[7] +8 1; pc <- pc +8 2`. -/
def execPop (a : RegOperand) (s : State) : Host.Outcome State Fault Refusal :=
  .next ((s.setRegOperand a s.loadTop).incSp.advance 2)

end Sys2Proof.Machine
end

