-- ==== Sys2Proof/Machine/System.lean ====
section
/-! DEFINITION. HLT and NOP (45_system.md). -/

namespace Sys2Proof.Machine

/-- HLT (45_system.md R115): `running <- 0`; `pc` keeps the address of the HLT. -/
def execHlt (s : State) : Host.Outcome State Fault Refusal := .next s.halt

/-- NOP (45_system.md R116): `pc <- pc +8 1` (DESIGN CHOICE, unsafe, log 19: 90_conflicts.md C3 settles the advance). -/
def execNop (s : State) : Host.Outcome State Fault Refusal := .next (s.advance 1)

end Sys2Proof.Machine
end

