-- ==== Sys2Proof/Machine/Cycle.lean ====
section
/-! DEFINITION. One pass of the fetch-decode-execute loop under any opcode map (40_fetch_decode_loop.md R70 to R76). -/

namespace Sys2Proof.Machine

/-- What a step does with the decoder's answer: run the instruction, or raise DecodeError with the address and the byte
(40_fetch_decode_loop.md R72, R73; 60_exceptions.md R121). -/
def execDecoded (d : Except DecodeReject Instr) (s : State) : Host.Outcome State Fault Refusal :=
  match d with
  | .ok i => exec i s
  | .error (.unknownOpcode op) => .next (s.raiseDecodeError s.pc op)

/-- One step of the engine (40_fetch_decode_loop.md R76), defined only while `running` is true (R70): a halted machine has
no step, which is the fault `halted`. The fetch reads the memory as it stands before the instruction's own write
(20_memory.md R41; DESIGN CHOICE, safe, log 11). -/
def stepWith (m : OpcodeMap) (s : State) : Host.Outcome State Fault Refusal :=
  if s.running then execDecoded (decodeWith m s.fetch) s else .fault .halted

/-- The bytes of a table word stored where the next step fetches (used by `State.withFetchWord`). -/
def State.placeTableWord (s : State) (nbits w : Nat) : State := s.writeBytes s.pc (tableBytes nbits w).toList

end Sys2Proof.Machine
end

