-- ==== Sys2Proof/Machine/Step.lean ====
section
/-! DEFINITION. The machine's step, with the default opcode map, and the placing of one instruction at the next fetch. -/

namespace Sys2Proof.Machine

/-- The step of the machine (40_fetch_decode_loop.md R76). -/
def step (s : State) : Host.Outcome State Fault Refusal := stepWith opcodeMap s

/-- `s` with one instruction stored at `pc`, `pc +8 1` and `pc +8 2`, where the next step fetches it; nothing else
changes. It stands for the loader (70_reset_and_hazards.md R141, log 13) and is no behaviour of the machine. -/
def State.withFetchWord (s : State) (nbits w : Nat) : State := s.placeTableWord nbits w

end Sys2Proof.Machine
end

