-- ==== Sys2Proof/Machine/Boot.lean ====
section
/-! DEFINITION. How a run starts: the loader's output contract (70_reset_and_hazards.md R141) and the program image's
text form (30_encoding.md R61). The loader itself is outside the core (00_scope.md section 2); the machine's step uses
nothing of this file. -/

namespace Sys2Proof.Machine

/-- The state before the first step: reset, then the image at successive addresses from 0 (70_reset_and_hazards.md R141).
An image of more than 256 bytes is refused before the core starts (DESIGN CHOICE, safe, log 13: the spec's own decision D13). -/
def State.boot (image : List Byte) : Option State :=
  if image.length ≤ Config.memSize then some (State.reset.writeBytes Config.imageBase image) else none

/-- Why the host refuses an image: each ends everything before the first step (60_exceptions.md R128). -/
inductive LoadError where
  /-- A line's text is no binary digit string (30_encoding.md R61). -/
  | malformedLine
  /-- A line's value is above 255 (92_eei_decisions.md D13). -/
  | valueTooLarge
  /-- There are more than 256 bytes (92_eei_decisions.md D13). -/
  | imageTooLong
deriving DecidableEq, Repr

/-- The lines of a text, without their line feeds. -/
def textLines (text : List Char) : List (List Char) :=
  match text with
  | [] => [[]]
  | c :: rest =>
    if c = '\n' then [] :: textLines rest
    else match textLines rest with
      | [] => [[c]]
      | l :: ls => (c :: l) :: ls

/-- A character that may stand around a literal: a space, a tab or a carriage return (DESIGN CHOICE, safe, log 16). -/
def isImageSpace (c : Char) : Bool := c = ' ' || c = '\t' || c = '\r'

/-- The text of a line before its `#` comment, without the spaces around it (30_encoding.md R61). -/
def lineText (line : List Char) : List Char :=
  (((line.takeWhile (· ≠ '#')).dropWhile isImageSpace).reverse.dropWhile isImageSpace).reverse

/-- The value of a binary digit string read on from `acc`, most significant digit first (92_eei_decisions.md D12;
DESIGN CHOICE, safe, log 12). -/
def binaryValue (acc : Nat) (digits : List Char) : Option Nat :=
  match digits with
  | [] => some acc
  | c :: rest =>
    if c = '0' then binaryValue (2 * acc) rest
    else if c = '1' then binaryValue (2 * acc + 1) rest
    else none

/-- The byte of one line, or none for a line that is blank after its comment is stripped (30_encoding.md R61). -/
def parseLine (line : List Char) : Except LoadError (Option Byte) :=
  if lineText line = [] then .ok none
  else match binaryValue 0 (lineText line) with
    | none => .error .malformedLine
    | some n => if n < 256 then .ok (some (BitVec.ofNat 8 n)) else .error .valueTooLarge

/-- The bytes of successive lines; the first line in error ends the load (60_exceptions.md R128). -/
def parseLines (lines : List (List Char)) : Except LoadError (List Byte) :=
  match lines with
  | [] => .ok []
  | l :: ls =>
    match parseLine l with
    | .error r => .error r
    | .ok v =>
      match parseLines ls with
      | .error r => .error r
      | .ok bytes => .ok (v.toList ++ bytes)

/-- The image a program text stands for, or the load error (30_encoding.md R61, 60_exceptions.md R128). -/
def parseImage (text : List Char) : Except LoadError (List Byte) :=
  match parseLines (textLines text) with
  | .error r => .error r
  | .ok bytes => if bytes.length ≤ Config.memSize then .ok bytes else .error .imageTooLong

/-- The eight binary digits of a byte, most significant first (92_eei_decisions.md D12). -/
def byteDigits (v : Byte) : List Char :=
  [7, 6, 5, 4, 3, 2, 1, 0].map (fun k => if v.getLsbD k then '1' else '0')

/-- An image as text, one byte a line (30_encoding.md R61). -/
def imageText (image : List Byte) : List Char := image.flatMap (fun v => byteDigits v ++ ['\n'])

end Sys2Proof.Machine
end

