-- ==== Sys2Proof/Safety.lean ====
section
/-! DEFINITION. The terms claims are stated in: how a run can end, the state invariant, and "unchanged" for each kind
of state. -/

namespace Sys2Proof.Machine

/-- The terminal state "halted" (10_state.md R19). -/
abbrev State.halted (s : State) : Prop := s.running = false

/-- Halted by a decode error (10_state.md R20). A faulted state is never a good end (92_eei_decisions.md D7). -/
abbrev State.faulted (s : State) : Prop := s.running = false ∧ s.fault ≠ none

/-- Halted by HLT: the one normal end of a run (10_state.md R20, 40_fetch_decode_loop.md R77). -/
abbrev State.endedNormally (s : State) : Prop := s.running = false ∧ s.fault = none

/-- The state invariant: memory is in its canonical form, and a recorded fault implies a halted machine
(10_state.md R26). The rest of R26, the ranges, holds by the types of the fields. -/
abbrev State.inv (s : State) : Prop := s.mem.wf ∧ (s.fault ≠ none → s.running = false)

/-- Every byte of memory reads as before. -/
def SameMemory (s t : State) : Prop := ∀ addr : Byte, t.readMem addr = s.readMem addr

/-- Every byte of memory reads as before, except the one at `dest`. -/
def SameMemoryExcept (dest : Byte) (s t : State) : Prop := ∀ addr : Byte, addr ≠ dest → t.readMem addr = s.readMem addr

/-- Every register reads as before, except those listed. -/
def SameRegsExcept (rs : List Reg) (s t : State) : Prop := ∀ r : Reg, r ∉ rs → t.getReg r = s.getReg r

/-- The run state and the fault latch are as before. -/
def SameControl (s t : State) : Prop := t.running = s.running ∧ t.fault = s.fault

/-- The output stream is as before. -/
def SameOut (s t : State) : Prop := t.out = s.out

/-- The Equal flag is as before. -/
def SameE (s t : State) : Prop := t.e = s.e

/-! ## The effect of an instruction on each kind of state, as the tables and rules of the spec give it -/

/-- The registers an instruction writes: its destination operand, and R7 for the stack instructions
(the "Writes" line of each instruction's rule). -/
def writtenRegs : Instr → List Reg
  | .ldi a _ => [ridx a]
  | .add a _ => [ridx a]
  | .mlt a _ => [ridx a]
  | .push _ => [7]
  | .pop a => [ridx a, 7]
  | .call _ => [7]
  | .ret => [7]
  | .prn _ => []
  | .cmp _ _ => []
  | .jmp _ => []
  | .jeq _ => []
  | .jne _ => []
  | .hlt => []
  | .nop => []

/-- PUSH and CALL store one byte; nothing else stores (20_memory.md R35). -/
def storesByte : Instr → Bool
  | .push _ => true
  | .call _ => true
  | .ldi _ _ => false
  | .prn _ => false
  | .add _ _ => false
  | .mlt _ _ => false
  | .pop _ => false
  | .ret => false
  | .cmp _ _ => false
  | .jmp _ => false
  | .jeq _ => false
  | .jne _ => false
  | .hlt => false
  | .nop => false

/-- POP and RET read one byte of memory, at SP; nothing else reads it but the fetch (20_memory.md R35). -/
def loadsByte : Instr → Bool
  | .pop _ => true
  | .ret => true
  | .push _ => false
  | .call _ => false
  | .ldi _ _ => false
  | .prn _ => false
  | .add _ _ => false
  | .mlt _ _ => false
  | .cmp _ _ => false
  | .jmp _ => false
  | .jeq _ => false
  | .jne _ => false
  | .hlt => false
  | .nop => false

/-- JEQ and JNE read the Equal flag; nothing else does (10_state.md R17). -/
def readsE : Instr → Bool
  | .jeq _ => true
  | .jne _ => true
  | .pop _ => false
  | .ret => false
  | .push _ => false
  | .call _ => false
  | .ldi _ _ => false
  | .prn _ => false
  | .add _ _ => false
  | .mlt _ _ => false
  | .cmp _ _ => false
  | .jmp _ => false
  | .hlt => false
  | .nop => false

/-- The program counter after each instruction, as a number: the table of 40_fetch_decode_loop.md R74. CALL's register
is read after the push, so for R7 it is the decremented stack pointer. -/
def pcAfter (i : Instr) (s : State) : Nat :=
  match i with
  | .ldi _ _ => (s.pc.toNat + 3) % 256
  | .add _ _ => (s.pc.toNat + 3) % 256
  | .mlt _ _ => (s.pc.toNat + 3) % 256
  | .cmp _ _ => (s.pc.toNat + 3) % 256
  | .prn _ => (s.pc.toNat + 2) % 256
  | .push _ => (s.pc.toNat + 2) % 256
  | .pop _ => (s.pc.toNat + 2) % 256
  | .nop => (s.pc.toNat + 1) % 256
  | .jmp a => (s.getReg (ridx a)).toNat
  | .call a => if ridx a = 7 then (s.sp.toNat + 255) % 256 else (s.getReg (ridx a)).toNat
  | .ret => (s.readMem s.sp).toNat
  | .jeq a => if s.e = true then (s.getReg (ridx a)).toNat else (s.pc.toNat + 2) % 256
  | .jne a => if s.e = false then (s.getReg (ridx a)).toNat else (s.pc.toNat + 2) % 256
  | .hlt => s.pc.toNat

/-- The Equal flag after an instruction (10_state.md R17, 42_alu.md R93). -/
def eAfter (i : Instr) (s : State) : Bool :=
  match i with
  | .cmp a b => decide (s.getReg (ridx a) = s.getReg (ridx b))
  | .ldi _ _ => s.e
  | .prn _ => s.e
  | .add _ _ => s.e
  | .mlt _ _ => s.e
  | .push _ => s.e
  | .pop _ => s.e
  | .call _ => s.e
  | .ret => s.e
  | .jmp _ => s.e
  | .jeq _ => s.e
  | .jne _ => s.e
  | .hlt => s.e
  | .nop => s.e

/-- The bytes an instruction emits: one for PRN, none otherwise (10_state.md R21). -/
def emitted (i : Instr) (s : State) : List Byte :=
  match i with
  | .prn a => [s.getReg (ridx a)]
  | .ldi _ _ => []
  | .add _ _ => []
  | .mlt _ _ => []
  | .cmp _ _ => []
  | .push _ => []
  | .pop _ => []
  | .call _ => []
  | .ret => []
  | .jmp _ => []
  | .jeq _ => []
  | .jne _ => []
  | .hlt => []
  | .nop => []

/-- The byte PUSH or CALL stores: PUSH reads its register after the decrement (43_stack.md R101), CALL stores the return
address (44_control_transfer.md R106). -/
def storedByte (i : Instr) (s : State) : Option Byte :=
  match i with
  | .push a => some (if ridx a = 7 then s.decSp.sp else s.getReg (ridx a))
  | .call _ => some (BitVec.ofNat 8 (s.pc.toNat + 2))
  | .ldi _ _ => none
  | .prn _ => none
  | .add _ _ => none
  | .mlt _ _ => none
  | .cmp _ _ => none
  | .pop _ => none
  | .ret => none
  | .jmp _ => none
  | .jeq _ => none
  | .jne _ => none
  | .hlt => none
  | .nop => none

/-- What a cell holds after an instruction: the stored byte at the decremented SP, the old contents elsewhere. -/
def memAfter (i : Instr) (s : State) (addr : Byte) : Byte :=
  if addr = s.decSp.sp then (storedByte i s).getD (s.readMem addr) else s.readMem addr

/-- The opcode byte at `pc` is none of the map's 14 values (30_encoding.md R57). -/
def IllegalOpcode (m : OpcodeMap) (s : State) : Prop := ∀ c : Opcode, m c ≠ s.readMem s.pc

end Sys2Proof.Machine
end

