-- ==== Sys2Proof/Certificates/Slice0/Obligations.lean ====
section
/-! DEFINITION. The statements for the provers. Each docstring names the rule of spec/ it formalises and, where it rests
on a decision the spec or this model took, the log entry. -/

open Sys2Proof Sys2Proof.Machine

/-! ## Encoding and decoding -/

/-- Decode and encode agree, for every instruction, every operand byte and every injective opcode map: the decoder answers
`i` exactly when the bytes of `i` stand at the front of the three fetched bytes (30_encoding.md R50 to R53, R57, R58). -/
def Obligations.DecodeAnswersExactlyTheEncodedInstruction : Prop :=
  ∀ m : OpcodeMap, m.Injective → ∀ (f : Fetched) (i : Instr),
    decodeWith m f = .ok i ↔ encodeWith m i <+: f.toList

/-- A few words written out from the spec's encodings decode as the instructions they stand for (41 R85, R86; 42 R91;
43 R101; 44 R107; 45 R115: the examples). The opcode values are PRESUMED (log 1). -/
def Obligations.SpecWordsDecodeAsWritten : Prop :=
  decode { op := 0b10000010, a := 0b00000000, b := 0b00001000 } = .ok (.ldi 0 8) ∧
  decode { op := 0b01000111, a := 0b00000000, b := 0xFF } = .ok (.prn 0) ∧
  decode { op := 0b10100000, a := 0b00000000, b := 0b00000001 } = .ok (.add 0 1) ∧
  decode { op := 0b01000101, a := 0b00000000, b := 0xFF } = .ok (.push 0) ∧
  decode { op := 0b00010001, a := 0xFF, b := 0xFF } = .ok .ret ∧
  decode { op := 0b00000001, a := 0xFF, b := 0xFF } = .ok .hlt

/-- An opcode byte is refused exactly when it is none of the map's 14 values, whatever the operand bytes, and the refusal
names the byte. Under the default map (PRESUMED values, log 1) the 14 values are distinct and 242 byte values are refused
(30_encoding.md R53, R57). -/
def Obligations.IllegalOpcodesAreTheUnmappedBytes : Prop :=
  (∀ (m : OpcodeMap) (f : Fetched), decodeWith m f = .error (.unknownOpcode f.op) ↔ ∀ c : Opcode, m c ≠ f.op) ∧
  (∀ (m : OpcodeMap) (f : Fetched), (∃ i, decodeWith m f = .ok i) ↔ ∃ c : Opcode, m c = f.op) ∧
  opcodeMap.Injective ∧
  ((List.range 256).filter (fun n => opcodeMap.lookup (BitVec.ofNat 8 n) = none)).length = 242

/-- Bytes beyond an instruction's own length are ignored: changing them changes nothing in what is decoded
(30_encoding.md R58, R56). -/
def Obligations.BytesBeyondTheInstructionAreIgnored : Prop :=
  ∀ (m : OpcodeMap) (f g : Fetched) (i : Instr), decodeWith m f = .ok i →
    g.toList.take i.length = f.toList.take i.length → decodeWith m g = .ok i

/-- A register operand byte selects the register of its low three bits, and its upper five bits have no effect on any
instruction; clearing them gives a well-formed instruction (10_state.md R14, 30_encoding.md R52, R62). The index policy
is the spec's own decision D3 (DESIGN CHOICE, log 3). -/
def Obligations.UpperOperandBitsHaveNoEffect : Prop :=
  (∀ b : RegOperand, (ridx b).val = b.toNat % 8) ∧
  ∀ (i : Instr) (s : State), exec i.clean s = exec i s ∧ i.clean.wellFormed = true

/-! ## The step -/

/-- The fetch reads the opcode at `pc` and the operand bytes at the next two addresses, modulo 256
(40_fetch_decode_loop.md R71). It is a function of the state alone, so it changes nothing and cannot fail. -/
def Obligations.FetchReadsThreeBytesFromPc : Prop :=
  ∀ s : State, s.fetch.op = s.readMem s.pc ∧
    s.fetch.a = s.readMem (BitVec.ofNat 8 ((s.pc.toNat + 1) % 256)) ∧
    s.fetch.b = s.readMem (BitVec.ofNat 8 ((s.pc.toNat + 2) % 256))

/-- While the machine runs, a step whose fetched bytes decode to an instruction is exactly the execution of that
instruction: the step adds nothing around it (40_fetch_decode_loop.md R72 to R74). -/
def Obligations.StepRunsTheDecodedInstruction : Prop :=
  (∀ (m : OpcodeMap) (s : State) (i : Instr), s.running = true → decodeWith m s.fetch = .ok i →
    stepWith m s = exec i s) ∧
  ∀ (s : State) (i : Instr), s.running = true → decode s.fetch = .ok i → step s = exec i s

/-- While the machine runs, an instruction whose encoding stands in memory from `pc` on, wrapping past 0xFF, is what the
step executes (20_memory.md R33, 30_encoding.md R50; the wrap is the spec's own decision D2, DESIGN CHOICE, log 2). -/
def Obligations.StepRunsTheInstructionStoredAtPc : Prop :=
  ∀ (m : OpcodeMap) (s : State) (i : Instr), m.Injective → s.running = true →
    (∀ k : Nat, k < (encodeWith m i).length →
      some (s.readMem (s.pc + BitVec.ofNat 8 k)) = (encodeWith m i)[k]?) →
    stepWith m s = exec i s

/-- The engine takes a step if and only if `running = 1`; a halted machine has no step
(40_fetch_decode_loop.md R70). That the model then answers the fault `halted` is its own choice (DESIGN CHOICE, log 14). -/
def Obligations.StepExistsExactlyWhileRunning : Prop :=
  ∀ (m : OpcodeMap) (s : State),
    ((∃ t, stepWith m s = .next t) ↔ s.running = true) ∧ (s.running = false → stepWith m s = .fault .halted)

/-- An illegal opcode byte takes the DecodeError: the machine halts with the address and the byte in the latch, and `pc`,
the registers, memory, the flag and the output are unchanged (60_exceptions.md R121, R126). What stays unchanged is the
spec's own decision D7 (DESIGN CHOICE, log 7). -/
def Obligations.IllegalOpcodeTakesTheDecodeError : Prop :=
  ∀ (m : OpcodeMap) (s : State), s.running = true → IllegalOpcode m s →
    ∃ t, stepWith m s = .next t ∧ t.running = false ∧
      t.fault = some { addr := s.pc, opcode := s.readMem s.pc } ∧ t.pc = s.pc ∧
      SameRegsExcept [] s t ∧ SameMemory s t ∧ SameE s t ∧ SameOut s t

/-! ## The fourteen instructions: encoding under any opcode map, result, and everything unchanged -/

/-- LDI (41_data_movement.md R85). -/
def Obligations.LdiLoadsItsLiteral : Prop :=
  ∀ (m : OpcodeMap) (a : RegOperand) (imm : Byte) (s : State),
    encodeWith m (.ldi a imm) = [m .ldi, a, imm] ∧
    ∃ t, exec (.ldi a imm) s = .next t ∧ t.getReg (ridx a) = imm ∧ t.pc.toNat = (s.pc.toNat + 3) % 256 ∧
      SameRegsExcept [ridx a] s t ∧ SameMemory s t ∧ SameE s t ∧ SameOut s t ∧ SameControl s t

/-- PRN (41_data_movement.md R86). That the core hands over the byte and the sink always accepts is the spec's own
decision D8 (DESIGN CHOICE, log 8). -/
def Obligations.PrnEmitsItsRegister : Prop :=
  ∀ (m : OpcodeMap) (a : RegOperand) (s : State),
    encodeWith m (.prn a) = [m .prn, a] ∧
    ∃ t, exec (.prn a) s = .next t ∧ t.out = s.out ++ [s.getReg (ridx a)] ∧ t.pc.toNat = (s.pc.toNat + 2) % 256 ∧
      SameRegsExcept [] s t ∧ SameMemory s t ∧ SameE s t ∧ SameControl s t

/-- ADD (42_alu.md R91): both sources are read before the destination is written, for every pair of operands. -/
def Obligations.AddWritesTheSumModulo256 : Prop :=
  ∀ (m : OpcodeMap) (a b : RegOperand) (s : State),
    encodeWith m (.add a b) = [m .add, a, b] ∧
    ∃ t, exec (.add a b) s = .next t ∧
      (t.getReg (ridx a)).toNat = ((s.getReg (ridx a)).toNat + (s.getReg (ridx b)).toNat) % 256 ∧
      t.pc.toNat = (s.pc.toNat + 3) % 256 ∧
      SameRegsExcept [ridx a] s t ∧ SameMemory s t ∧ SameE s t ∧ SameOut s t ∧ SameControl s t

/-- MLT (42_alu.md R92): the low byte of the product. -/
def Obligations.MltWritesTheProductModulo256 : Prop :=
  ∀ (m : OpcodeMap) (a b : RegOperand) (s : State),
    encodeWith m (.mlt a b) = [m .mlt, a, b] ∧
    ∃ t, exec (.mlt a b) s = .next t ∧
      (t.getReg (ridx a)).toNat = ((s.getReg (ridx a)).toNat * (s.getReg (ridx b)).toNat) % 256 ∧
      t.pc.toNat = (s.pc.toNat + 3) % 256 ∧
      SameRegsExcept [ridx a] s t ∧ SameMemory s t ∧ SameE s t ∧ SameOut s t ∧ SameControl s t

/-- CMP (42_alu.md R93): the flag is always written, set or cleared. -/
def Obligations.CmpSetsEqualFromItsRegisters : Prop :=
  ∀ (m : OpcodeMap) (a b : RegOperand) (s : State),
    encodeWith m (.cmp a b) = [m .cmp, a, b] ∧
    ∃ t, exec (.cmp a b) s = .next t ∧
      (t.e = true ↔ (s.getReg (ridx a)).toNat = (s.getReg (ridx b)).toNat) ∧
      t.pc.toNat = (s.pc.toNat + 3) % 256 ∧
      SameRegsExcept [] s t ∧ SameMemory s t ∧ SameOut s t ∧ SameControl s t

/-- PUSH (43_stack.md R101), for every operand: R7 stores the decremented stack pointer, which is the spec's own decision
D9 (DESIGN CHOICE, log 9). The address stored to is `s.decSp.sp`, as in the meaning. -/
def Obligations.PushStoresBelowTheStackPointer : Prop :=
  ∀ (m : OpcodeMap) (a : RegOperand) (s : State),
    encodeWith m (.push a) = [m .push, a] ∧
    ∃ t, exec (.push a) s = .next t ∧
      s.decSp.sp.toNat = (s.sp.toNat + 255) % 256 ∧ t.sp = s.decSp.sp ∧
      t.readMem s.decSp.sp = (if ridx a = 7 then s.decSp.sp else s.getReg (ridx a)) ∧
      t.pc.toNat = (s.pc.toNat + 2) % 256 ∧
      SameRegsExcept [7] s t ∧ SameMemoryExcept s.decSp.sp s t ∧ SameE s t ∧ SameOut s t ∧ SameControl s t

/-- POP (43_stack.md R102), for every operand: for R7 the stack pointer ends as the popped byte plus 1, which is the spec's
own decision D9 (DESIGN CHOICE, log 9). -/
def Obligations.PopLoadsTheTopOfStack : Prop :=
  ∀ (m : OpcodeMap) (a : RegOperand) (s : State),
    encodeWith m (.pop a) = [m .pop, a] ∧
    ∃ t, exec (.pop a) s = .next t ∧
      (if ridx a = 7 then t.sp.toNat = ((s.readMem s.sp).toNat + 1) % 256
       else t.getReg (ridx a) = s.readMem s.sp ∧ t.sp.toNat = (s.sp.toNat + 1) % 256) ∧
      t.pc.toNat = (s.pc.toNat + 2) % 256 ∧
      SameRegsExcept [ridx a, 7] s t ∧ SameMemory s t ∧ SameE s t ∧ SameOut s t ∧ SameControl s t

/-- CALL (44_control_transfer.md R106), for every operand: for R7 the target is the decremented stack pointer, which is
the spec's own decision D9 (DESIGN CHOICE, log 9). The address stored to is `s.decSp.sp`, as in the meaning. -/
def Obligations.CallPushesTheReturnAddressAndJumps : Prop :=
  ∀ (m : OpcodeMap) (a : RegOperand) (s : State),
    encodeWith m (.call a) = [m .call, a] ∧
    ∃ t, exec (.call a) s = .next t ∧
      s.decSp.sp.toNat = (s.sp.toNat + 255) % 256 ∧ t.sp = s.decSp.sp ∧
      (t.readMem s.decSp.sp).toNat = (s.pc.toNat + 2) % 256 ∧
      t.pc = (if ridx a = 7 then s.decSp.sp else s.getReg (ridx a)) ∧
      SameRegsExcept [7] s t ∧ SameMemoryExcept s.decSp.sp s t ∧ SameE s t ∧ SameOut s t ∧ SameControl s t

/-- RET (44_control_transfer.md R107). -/
def Obligations.RetPopsTheProgramCounter : Prop :=
  ∀ (m : OpcodeMap) (s : State),
    encodeWith m .ret = [m .ret] ∧
    ∃ t, exec .ret s = .next t ∧ t.pc = s.readMem s.sp ∧ t.sp.toNat = (s.sp.toNat + 1) % 256 ∧
      SameRegsExcept [7] s t ∧ SameMemory s t ∧ SameE s t ∧ SameOut s t ∧ SameControl s t

/-- JMP (44_control_transfer.md R108). -/
def Obligations.JmpGoesToItsRegister : Prop :=
  ∀ (m : OpcodeMap) (a : RegOperand) (s : State),
    encodeWith m (.jmp a) = [m .jmp, a] ∧
    ∃ t, exec (.jmp a) s = .next t ∧ t.pc = s.getReg (ridx a) ∧
      SameRegsExcept [] s t ∧ SameMemory s t ∧ SameE s t ∧ SameOut s t ∧ SameControl s t

/-- JEQ (44_control_transfer.md R109): taken when `E = 1`, else the next instruction; the flag is left as it is. -/
def Obligations.JeqJumpsWhenEqualIsSet : Prop :=
  ∀ (m : OpcodeMap) (a : RegOperand) (s : State),
    encodeWith m (.jeq a) = [m .jeq, a] ∧
    ∃ t, exec (.jeq a) s = .next t ∧
      (s.e = true → t.pc = s.getReg (ridx a)) ∧ (s.e = false → t.pc.toNat = (s.pc.toNat + 2) % 256) ∧
      SameRegsExcept [] s t ∧ SameMemory s t ∧ SameE s t ∧ SameOut s t ∧ SameControl s t

/-- JNE (44_control_transfer.md R110): taken when `E = 0`, else the next instruction; for the same flag and register
exactly one of JEQ and JNE goes to the register and the other to the next instruction. -/
def Obligations.JneJumpsWhenEqualIsClear : Prop :=
  ∀ (m : OpcodeMap) (a : RegOperand) (s : State),
    encodeWith m (.jne a) = [m .jne, a] ∧
    ∃ t u, exec (.jne a) s = .next t ∧ exec (.jeq a) s = .next u ∧
      (s.e = false → t.pc = s.getReg (ridx a) ∧ u.pc.toNat = (s.pc.toNat + 2) % 256) ∧
      (s.e = true → t.pc.toNat = (s.pc.toNat + 2) % 256 ∧ u.pc = s.getReg (ridx a)) ∧
      SameRegsExcept [] s t ∧ SameMemory s t ∧ SameE s t ∧ SameOut s t ∧ SameControl s t

/-- HLT (45_system.md R115): the machine halts at the HLT, nothing else changes, and no step follows. -/
def Obligations.HltHaltsTheMachineForGood : Prop :=
  ∀ (m n : OpcodeMap) (s : State),
    encodeWith m .hlt = [m .hlt] ∧
    ∃ t, exec .hlt s = .next t ∧ t.running = false ∧ t.pc = s.pc ∧ t.fault = s.fault ∧
      SameRegsExcept [] s t ∧ SameMemory s t ∧ SameE s t ∧ SameOut s t ∧ ¬ ∃ u, stepWith n t = .next u

/-- NOP (45_system.md R116): the pc advances by 1, which 90_conflicts.md C3 settles, and nothing else changes (log 19). -/
def Obligations.NopAdvancesByOne : Prop :=
  ∀ (m : OpcodeMap) (s : State),
    encodeWith m .nop = [m .nop] ∧
    ∃ t, exec .nop s = .next t ∧ t.pc.toNat = (s.pc.toNat + 1) % 256 ∧
      SameRegsExcept [] s t ∧ SameMemory s t ∧ SameE s t ∧ SameOut s t ∧ SameControl s t

/-! ## Rules of the whole machine -/

/-- Every instruction completes, and leaves the pc the table of 40_fetch_decode_loop.md R74 gives; an illegal opcode leaves
the pc where it is. That last clause is the spec's own decision D7 (60_exceptions.md R121; DESIGN CHOICE, log 7), and the pc
after CALL R7 its decision D9 (44_control_transfer.md R106; DESIGN CHOICE, log 9). -/
def Obligations.EveryInstructionSetsThePcOfTheTable : Prop :=
  (∀ (i : Instr) (s : State), ∃ t, exec i s = .next t ∧ t.pc.toNat = pcAfter i s) ∧
  ∀ (m : OpcodeMap) (s : State), s.running = true → IllegalOpcode m s → ∃ t, stepWith m s = .next t ∧ t.pc = s.pc

/-- The Equal flag is written by CMP alone and read by JEQ and JNE alone: a step leaves it unless it runs a CMP, and an
instruction that is neither JEQ nor JNE does the same to all other state whatever the flag holds (10_state.md R17). -/
def Obligations.EqualIsWrittenByCmpAndReadByConditionalJumps : Prop :=
  (∀ (i : Instr) (s t : State), exec i s = .next t → t.e = eAfter i s) ∧
  (∀ (m : OpcodeMap) (s t : State), stepWith m s = .next t → IllegalOpcode m s → t.e = s.e) ∧
  ∀ (i : Instr) (s t : State) (v : Bool), readsE i = false → exec i s = .next t →
    ∃ u, exec i (s.setE v) = .next u ∧ u.e = eAfter i (s.setE v) ∧ u.setE t.e = t

/-- `running` is set by reset, cleared by HLT and by a decode error, and by nothing else; nothing sets it again, since no
step leaves the halted state (10_state.md R19). -/
def Obligations.RunningIsClearedByHltAndDecodeErrorOnly : Prop :=
  State.reset.running = true ∧
  ∀ (m : OpcodeMap) (s : State), ((∃ t, stepWith m s = .next t) ↔ s.running = true) ∧
    ∀ t, stepWith m s = .next t → (t.running = false ↔ decodeWith m s.fetch = .ok .hlt ∨ IllegalOpcode m s)

/-- The fault latch is filled by a decode error alone, with the address and the byte, no step clears it, and no step reads
it (10_state.md R20). The latch is the spec's own decision D7 (DESIGN CHOICE, log 7). -/
def Obligations.FaultIsWrittenByDecodeErrorOnly : Prop :=
  (∀ (i : Instr) (s t : State), exec i s = .next t → t.fault = s.fault) ∧
  (∀ (m : OpcodeMap) (s t : State), stepWith m s = .next t →
    (IllegalOpcode m s → t.fault = some { addr := s.pc, opcode := s.readMem s.pc }) ∧
    (¬ IllegalOpcode m s → t.fault = s.fault)) ∧
  ∀ (m : OpcodeMap) (s t : State) (f : Option DecodeError), stepWith m s = .next t →
    ∃ u, stepWith m { s with fault := f } = .next u ∧ { u with fault := t.fault } = t

/-- The output only grows, by the one byte PRN emits and by nothing else, and no step reads it back
(10_state.md R21, R26). The stream is the spec's own decision D8 (DESIGN CHOICE, log 8). -/
def Obligations.OutputGrowsByPrnOnlyAndIsNeverRead : Prop :=
  (∀ (i : Instr) (s t : State), exec i s = .next t → t.out = s.out ++ emitted i s) ∧
  (∀ (m : OpcodeMap) (s t : State), stepWith m s = .next t → s.out <+: t.out ∧ (IllegalOpcode m s → t.out = s.out)) ∧
  ∀ (m : OpcodeMap) (s t : State) (o : List Byte), stepWith m s = .next t →
    ∃ u added, stepWith m { s with out := o } = .next u ∧ t.out = s.out ++ added ∧ u.out = o ++ added ∧
      { u with out := t.out } = t

/-- PUSH and CALL each write one cell, at the decremented SP; no other instruction writes memory
(20_memory.md R35). That a decode error leaves memory is the spec's own decision D7 (60_exceptions.md R121; DESIGN CHOICE,
log 7). The address stored to is `s.decSp.sp`, as in the meanings. -/
def Obligations.OnlyPushAndCallWriteMemory : Prop :=
  (∀ (i : Instr) (s t : State), exec i s = .next t →
    (storesByte i = true → SameMemoryExcept s.decSp.sp s t) ∧ (storesByte i = false → SameMemory s t)) ∧
  ∀ (m : OpcodeMap) (s t : State), stepWith m s = .next t → IllegalOpcode m s → SameMemory s t

/-- POP and RET each read one cell, at SP; apart from the fetch no other instruction reads memory: with any other memory
(for POP and RET, any that agrees at SP) an instruction does the same to all other state (20_memory.md R35). -/
def Obligations.OnlyPopAndRetReadMemory : Prop :=
  ∀ (i : Instr) (s t : State) (mem : Memory), exec i s = .next t →
    (loadsByte i = true → mem.read s.sp = s.readMem s.sp) →
    ∃ u, exec i { s with mem := mem } = .next u ∧ { u with mem := t.mem } = t

/-- No instruction changes a register other than those its rule names (the "Writes" lines of 41 R85, R86, 42 R91 to R93,
43 R101, R102, 44 R106 to R110, 45 R115, R116), nor does a decode error (60 R121; D7, log 7). -/
def Obligations.RegistersChangeOnlyWhereNamed : Prop :=
  (∀ (i : Instr) (s t : State), exec i s = .next t → SameRegsExcept (writtenRegs i) s t) ∧
  ∀ (m : OpcodeMap) (s t : State), stepWith m s = .next t → IllegalOpcode m s → SameRegsExcept [] s t

/-- A store is seen by the very next fetch: what is fetched after an instruction is what memory held before it, with the
byte it stored in place of the old one (20_memory.md R41; the spec's own decision D11, DESIGN CHOICE, log 11; the byte PUSH R7
stores is decision D9, log 9). -/
def Obligations.NextFetchSeesTheStore : Prop :=
  ∀ (i : Instr) (s t : State), exec i s = .next t →
    t.fetch = { op := memAfter i s t.pc, a := memAfter i s (t.pc + 1), b := memAfter i s (t.pc + 2) }

/-! ## Memory and registers -/

/-- A write changes the one cell and nothing else; a read gives the latest write to its cell (20_memory.md R31). It holds in
every state, whether its memory is in canonical form or not. -/
def Obligations.MemoryWriteChangesOneCell : Prop :=
  ∀ (s : State) (addr v : Byte),
    (s.writeMem addr v).readMem addr = v ∧ SameMemoryExcept addr s (s.writeMem addr v) ∧
    { s.writeMem addr v with mem := s.mem } = s

/-- Every one of the eight registers can be named by a well-formed operand byte, written with any byte and read back, and a
write changes that register and nothing else: no register is hardwired (10_state.md R11). -/
def Obligations.RegisterWriteChangesOneRegister : Prop :=
  (∀ r : Reg, ∃ b : RegOperand, RegOperand.wellFormed b = true ∧ ridx b = r) ∧
  ∀ (s : State) (r : Reg) (v : Byte),
    (s.setReg r v).getReg r = v ∧ SameRegsExcept [r] s (s.setReg r v) ∧ { s.setReg r v with x := s.x } = s

/-! ## Invariant, reset, boot, end of a run -/

/-- Every step keeps the invariant: memory in canonical form, and a recorded fault only in a halted machine
(10_state.md R26; the canonical form is the model's own, log 22). -/
def Obligations.EveryStepKeepsTheInvariant : Prop :=
  (∀ (m : OpcodeMap) (s t : State), s.inv → stepWith m s = .next t → t.inv) ∧
  ∀ s t : State, s.inv → step s = .next t → t.inv

/-- The reset state meets the invariant (10_state.md R25, R26). -/
def Obligations.ResetMeetsTheInvariant : Prop := State.reset.inv

/-- What reset leaves (10_state.md R25): memory zero, R0 to R6 zero, SP 0xF4, pc 0, running, no fault, no output; and `E = 0`,
which is the spec's own decision D6 (DESIGN CHOICE, log 6). -/
def Obligations.ResetLeavesTheTable : Prop :=
  (∀ addr : Byte, State.reset.readMem addr = 0x00) ∧
  (∀ r : Reg, r ≠ 7 → State.reset.getReg r = 0x00) ∧ State.reset.sp = 0xF4 ∧ State.reset.pc = 0x00 ∧
  State.reset.e = false ∧ State.reset.running = true ∧ State.reset.fault = none ∧ State.reset.out = []

/-- Boot places the image at successive addresses from 0 over the reset state and changes nothing else; images of 0 to 256
bytes are accepted, longer ones refused, which is the spec's own decision D13 (70_reset_and_hazards.md R141; DESIGN CHOICE,
log 13). -/
def Obligations.BootPlacesTheImageFromZero : Prop :=
  ∀ image : List Byte, (State.boot image = none ↔ 256 < image.length) ∧
    ∀ s, State.boot image = some s →
      (∀ k : Nat, k < 256 → s.readMem (BitVec.ofNat 8 k) = image.getD k 0x00) ∧
      { s with mem := State.reset.mem } = State.reset ∧ s.inv

/-- The step that ends a run either executed a HLT and left a normal end at its address, or met an illegal byte and left
the fault there; all other state is as before (40_fetch_decode_loop.md R77 a and b; the fault's state is D7, log 7). -/
def Obligations.RunEndsByHltOrDecodeError : Prop :=
  ∀ (m : OpcodeMap) (s t : State), s.inv → stepWith m s = .next t → t.running = false →
    (t.endedNormally ∧ decodeWith m s.fetch = .ok .hlt ∧ t = { s with running := false }) ∨
    (t.faulted ∧ IllegalOpcode m s ∧
      t = { s with running := false, fault := some { addr := s.pc, opcode := s.readMem s.pc } })

/-- Over any number of steps of the machine handed to the host, from every state that meets the invariant: the invariant
holds where the run stands, the output has only grown, nothing is ever refused, and a run stops only at a halted state it
has reached (10_state.md R26, 40_fetch_decode_loop.md R70, R77; the canonical form is the model's own, log 22, and the stop
`halted` is log 14). -/
def Obligations.RunsKeepTheInvariantAndStopOnlyHalted : Prop :=
  ∀ (k : Nat) (s : State), s.inv →
    (∀ t : State, Sys2Proof.core.run k s = .next t → t.inv ∧ s.out <+: t.out) ∧
    (∀ r : Refusal, Sys2Proof.core.run k s ≠ .refused r) ∧
    ∀ r : Fault, Sys2Proof.core.run k s = .fault r →
      ∃ (j : Nat) (t : State), j < k ∧ Sys2Proof.core.run j s = .next t ∧ t.halted

/-! ## Properties of pairs of instructions -/

/-- PUSH then POP into a register preserves the value and leaves the stack pointer as it was, where neither operand is R7
(43_stack.md R102's property as 90_conflicts.md C5 restricts it); with R7 pushed the other register gets SP minus 1, and with
R7 popped SP ends one above the pushed value, so that both on R7 leave SP as it was (D9, DESIGN CHOICE, log 9). -/
def Obligations.PushThenPopMovesTheValue : Prop :=
  ∀ (a b : RegOperand) (s : State), ∃ t u, exec (.push a) s = .next t ∧ exec (.pop b) t = .next u ∧
    (ridx a ≠ 7 → ridx b ≠ 7 → u.getReg (ridx b) = s.getReg (ridx a) ∧ u.sp = s.sp) ∧
    (ridx a = 7 → ridx b ≠ 7 → u.getReg (ridx b) = s.sp - 1 ∧ u.sp = s.sp) ∧
    (ridx a ≠ 7 → ridx b = 7 → u.sp = s.getReg (ridx a) + 1) ∧
    (ridx a = 7 → ridx b = 7 → u.sp = s.sp)

/-- PUSH then RET is a jump to the pushed register that leaves SP as it was (44_control_transfer.md R107, first corner case);
for R7 the jump goes to SP minus 1, the value PUSH R7 stores (43_stack.md R101; D9, DESIGN CHOICE, log 9). -/
def Obligations.PushThenRetJumpsToTheRegister : Prop :=
  ∀ (a : RegOperand) (s : State), ∃ t u, exec (.push a) s = .next t ∧ exec .ret t = .next u ∧
    (ridx a ≠ 7 → u.pc = s.getReg (ridx a)) ∧ (ridx a = 7 → u.pc = s.sp - 1) ∧ u.sp = s.sp

/-- RET after CALL returns to the byte after the CALL with SP as before it, from every state in which the subroutine has left
SP and the cell it points at as it found them (44_control_transfer.md R107's property). -/
def Obligations.RetReturnsAfterTheCall : Prop :=
  ∀ (a : RegOperand) (s : State), ∃ t, exec (.call a) s = .next t ∧
    ∀ u : State, u.sp = t.sp → u.readMem t.sp = t.readMem t.sp →
      ∃ v, exec .ret u = .next v ∧ v.pc.toNat = (s.pc.toNat + 2) % 256 ∧ v.sp = s.sp

/-- CMP then JEQ goes to the register exactly when the compared values are equal, and otherwise advances past the JEQ; JNE is
the complement (44_control_transfer.md R109's property, R110). -/
def Obligations.CompareThenBranchFollowsEquality : Prop :=
  ∀ (a b c : RegOperand) (s : State), ∃ t u v, exec (.cmp a b) s = .next t ∧
    exec (.jeq c) t = .next u ∧ exec (.jne c) t = .next v ∧
    (s.getReg (ridx a) = s.getReg (ridx b) → u.pc = s.getReg (ridx c) ∧ v.pc.toNat = (t.pc.toNat + 2) % 256) ∧
    (s.getReg (ridx a) ≠ s.getReg (ridx b) → u.pc.toNat = (t.pc.toNat + 2) % 256 ∧ v.pc = s.getReg (ridx c))

/-- Read as two's-complement bytes, ADD and MLT give the two's-complement sum and product and CMP compares the signed values
(42_alu.md R95). -/
def Obligations.ArithmeticAgreesWithTwosComplement : Prop :=
  ∀ (a b : RegOperand) (s : State), ∃ t u v,
    exec (.add a b) s = .next t ∧ exec (.mlt a b) s = .next u ∧ exec (.cmp a b) s = .next v ∧
    (t.getReg (ridx a)).toInt = ((s.getReg (ridx a)).toInt + (s.getReg (ridx b)).toInt).bmod 256 ∧
    (u.getReg (ridx a)).toInt = ((s.getReg (ridx a)).toInt * (s.getReg (ridx b)).toInt).bmod 256 ∧
    (v.e = true ↔ (s.getReg (ridx a)).toInt = (s.getReg (ridx b)).toInt)

/-! ## The program image as text -/

/-- An image of at most 256 bytes written as text, one binary literal a line, most significant digit first, loads back as
itself (30_encoding.md R61; D12, D13: DESIGN CHOICE, logs 12, 13). -/
def Obligations.ImageTextLoadsBackAsTheImage : Prop :=
  ∀ image : List Byte, image.length ≤ 256 → parseImage (imageText image) = .ok image

/-- A text loads as an image exactly when every line that is not blank after its comment is stripped is a binary digit string
of value below 256 and there are at most 256 of them; the image is their values in order (30_encoding.md R61,
60_exceptions.md R128; D12, D13 and the spaces stripped: DESIGN CHOICE, logs 12, 13, 16). -/
def Obligations.TextLoadsExactlyWhenEveryLineIsAByte : Prop :=
  ∀ (text : List Char) (image : List Byte), parseImage text = .ok image ↔
    image.length ≤ 256 ∧
    (((textLines text).map lineText).filter (fun l => l ≠ [])).map (binaryValue 0) = image.map (fun v => some v.toNat)
end

