-- ==== Sys2Proof/Laws/Decode.lean ====
section
/-! SUPPORT. What the lookup of an opcode byte and the decoder can answer (40_fetch_decode_loop.md R72). -/

namespace Sys2Proof

theorem Opcode.mem_all (c : Opcode) : c ∈ Opcode.all := by cases c <;> decide

/-- A lookup answers a mnemonic only for that mnemonic's byte. -/
theorem OpcodeMap.lookup_some {m : OpcodeMap} {op : Byte} {c : Opcode} (h : m.lookup op = some c) : m c = op := by
  simpa using List.find?_some h

/-- A lookup fails exactly for the bytes of no mnemonic (30_encoding.md R57). -/
theorem OpcodeMap.lookup_none {m : OpcodeMap} {op : Byte} : m.lookup op = none ↔ ∀ c, m c ≠ op := by
  simp [OpcodeMap.lookup, List.find?_eq_none, Opcode.mem_all]

/-- Under an injective map every mnemonic's byte is looked up as that mnemonic. -/
theorem OpcodeMap.lookup_apply {m : OpcodeMap} (hm : m.Injective) (c : Opcode) : m.lookup (m c) = some c := by
  cases h : m.lookup (m c) with
  | none => exact absurd rfl (OpcodeMap.lookup_none.1 h c)
  | some d => rw [hm d c (OpcodeMap.lookup_some h)]

/-- Everything the decoder can answer: an instruction of the looked-up mnemonic, or a rejection of a byte of none. -/
theorem decodeWith_cases (m : OpcodeMap) (f : Fetched) :
    (∃ c, m c = f.op ∧ decodeWith m f = .ok (c.withOperands f.a f.b)) ∨
    ((∀ c, m c ≠ f.op) ∧ decodeWith m f = .error (.unknownOpcode f.op)) := by
  unfold decodeWith
  cases h : m.lookup f.op with
  | none => exact .inr ⟨OpcodeMap.lookup_none.1 h, rfl⟩
  | some c => exact .inl ⟨c, OpcodeMap.lookup_some h, rfl⟩

@[simp] theorem Opcode.withOperands_opcode (c : Opcode) (a b : Byte) : (c.withOperands a b).opcode = c := by
  cases c <;> rfl

end Sys2Proof
end

