-- ==== Sys2Proof/Laws/State.lean ====
section
/-! SUPPORT. One lemma per field per update of State, and how the two reads (registers, memory) see each update, so
that no later proof unfolds a record update. -/

namespace Sys2Proof.Machine

/-! ### writeMem -/

@[simp] theorem State.writeMem_mem (s : State) (addr v : Byte) : (s.writeMem addr v).mem = s.mem.write addr v := rfl
@[simp] theorem State.writeMem_x (s : State) (addr v : Byte) : (s.writeMem addr v).x = s.x := rfl
@[simp] theorem State.writeMem_pc (s : State) (addr v : Byte) : (s.writeMem addr v).pc = s.pc := rfl
@[simp] theorem State.writeMem_e (s : State) (addr v : Byte) : (s.writeMem addr v).e = s.e := rfl
@[simp] theorem State.writeMem_running (s : State) (addr v : Byte) : (s.writeMem addr v).running = s.running := rfl
@[simp] theorem State.writeMem_fault (s : State) (addr v : Byte) : (s.writeMem addr v).fault = s.fault := rfl
@[simp] theorem State.writeMem_out (s : State) (addr v : Byte) : (s.writeMem addr v).out = s.out := rfl

/-! ### setReg -/

@[simp] theorem State.setReg_mem (s : State) (r : Reg) (v : Byte) : (s.setReg r v).mem = s.mem := rfl
@[simp] theorem State.setReg_x (s : State) (r : Reg) (v : Byte) : (s.setReg r v).x = s.x.set r v := rfl
@[simp] theorem State.setReg_pc (s : State) (r : Reg) (v : Byte) : (s.setReg r v).pc = s.pc := rfl
@[simp] theorem State.setReg_e (s : State) (r : Reg) (v : Byte) : (s.setReg r v).e = s.e := rfl
@[simp] theorem State.setReg_running (s : State) (r : Reg) (v : Byte) : (s.setReg r v).running = s.running := rfl
@[simp] theorem State.setReg_fault (s : State) (r : Reg) (v : Byte) : (s.setReg r v).fault = s.fault := rfl
@[simp] theorem State.setReg_out (s : State) (r : Reg) (v : Byte) : (s.setReg r v).out = s.out := rfl

/-! ### jump -/

@[simp] theorem State.jump_mem (s : State) (t : Byte) : (s.jump t).mem = s.mem := rfl
@[simp] theorem State.jump_x (s : State) (t : Byte) : (s.jump t).x = s.x := rfl
@[simp] theorem State.jump_pc (s : State) (t : Byte) : (s.jump t).pc = t := rfl
@[simp] theorem State.jump_e (s : State) (t : Byte) : (s.jump t).e = s.e := rfl
@[simp] theorem State.jump_running (s : State) (t : Byte) : (s.jump t).running = s.running := rfl
@[simp] theorem State.jump_fault (s : State) (t : Byte) : (s.jump t).fault = s.fault := rfl
@[simp] theorem State.jump_out (s : State) (t : Byte) : (s.jump t).out = s.out := rfl

/-! ### setE -/

@[simp] theorem State.setE_mem (s : State) (v : Bool) : (s.setE v).mem = s.mem := rfl
@[simp] theorem State.setE_x (s : State) (v : Bool) : (s.setE v).x = s.x := rfl
@[simp] theorem State.setE_pc (s : State) (v : Bool) : (s.setE v).pc = s.pc := rfl
@[simp] theorem State.setE_e (s : State) (v : Bool) : (s.setE v).e = v := rfl
@[simp] theorem State.setE_running (s : State) (v : Bool) : (s.setE v).running = s.running := rfl
@[simp] theorem State.setE_fault (s : State) (v : Bool) : (s.setE v).fault = s.fault := rfl
@[simp] theorem State.setE_out (s : State) (v : Bool) : (s.setE v).out = s.out := rfl

/-! ### emit -/

@[simp] theorem State.emit_mem (s : State) (v : Byte) : (s.emit v).mem = s.mem := rfl
@[simp] theorem State.emit_x (s : State) (v : Byte) : (s.emit v).x = s.x := rfl
@[simp] theorem State.emit_pc (s : State) (v : Byte) : (s.emit v).pc = s.pc := rfl
@[simp] theorem State.emit_e (s : State) (v : Byte) : (s.emit v).e = s.e := rfl
@[simp] theorem State.emit_running (s : State) (v : Byte) : (s.emit v).running = s.running := rfl
@[simp] theorem State.emit_fault (s : State) (v : Byte) : (s.emit v).fault = s.fault := rfl
@[simp] theorem State.emit_out (s : State) (v : Byte) : (s.emit v).out = s.out ++ [v] := rfl

/-! ### halt -/

@[simp] theorem State.halt_mem (s : State) : (s.halt).mem = s.mem := rfl
@[simp] theorem State.halt_x (s : State) : (s.halt).x = s.x := rfl
@[simp] theorem State.halt_pc (s : State) : (s.halt).pc = s.pc := rfl
@[simp] theorem State.halt_e (s : State) : (s.halt).e = s.e := rfl
@[simp] theorem State.halt_running (s : State) : (s.halt).running = false := rfl
@[simp] theorem State.halt_fault (s : State) : (s.halt).fault = s.fault := rfl
@[simp] theorem State.halt_out (s : State) : (s.halt).out = s.out := rfl

/-! ### raiseDecodeError -/

@[simp] theorem State.raiseDecodeError_mem (s : State) (addr op : Byte) : (s.raiseDecodeError addr op).mem = s.mem := rfl
@[simp] theorem State.raiseDecodeError_x (s : State) (addr op : Byte) : (s.raiseDecodeError addr op).x = s.x := rfl
@[simp] theorem State.raiseDecodeError_pc (s : State) (addr op : Byte) : (s.raiseDecodeError addr op).pc = s.pc := rfl
@[simp] theorem State.raiseDecodeError_e (s : State) (addr op : Byte) : (s.raiseDecodeError addr op).e = s.e := rfl
@[simp] theorem State.raiseDecodeError_running (s : State) (addr op : Byte) : (s.raiseDecodeError addr op).running = false := rfl
@[simp] theorem State.raiseDecodeError_fault (s : State) (addr op : Byte) : (s.raiseDecodeError addr op).fault = some { addr := addr, opcode := op } := rfl
@[simp] theorem State.raiseDecodeError_out (s : State) (addr op : Byte) : (s.raiseDecodeError addr op).out = s.out := rfl

/-! ### Reads of registers and memory through the updates -/

@[simp] theorem State.writeMem_getReg (s : State) (addr v : Byte) (q : Reg) : (s.writeMem addr v).getReg q = s.getReg q := rfl
@[simp] theorem State.setReg_readMem (s : State) (r : Reg) (v : Byte) (c : Byte) : (s.setReg r v).readMem c = s.readMem c := rfl
@[simp] theorem State.jump_getReg (s : State) (t : Byte) (q : Reg) : (s.jump t).getReg q = s.getReg q := rfl
@[simp] theorem State.jump_readMem (s : State) (t : Byte) (c : Byte) : (s.jump t).readMem c = s.readMem c := rfl
@[simp] theorem State.setE_getReg (s : State) (v : Bool) (q : Reg) : (s.setE v).getReg q = s.getReg q := rfl
@[simp] theorem State.setE_readMem (s : State) (v : Bool) (c : Byte) : (s.setE v).readMem c = s.readMem c := rfl
@[simp] theorem State.emit_getReg (s : State) (v : Byte) (q : Reg) : (s.emit v).getReg q = s.getReg q := rfl
@[simp] theorem State.emit_readMem (s : State) (v : Byte) (c : Byte) : (s.emit v).readMem c = s.readMem c := rfl
@[simp] theorem State.halt_getReg (s : State) (q : Reg) : (s.halt).getReg q = s.getReg q := rfl
@[simp] theorem State.halt_readMem (s : State) (c : Byte) : (s.halt).readMem c = s.readMem c := rfl
@[simp] theorem State.raiseDecodeError_getReg (s : State) (addr op : Byte) (q : Reg) : (s.raiseDecodeError addr op).getReg q = s.getReg q := rfl
@[simp] theorem State.raiseDecodeError_readMem (s : State) (addr op : Byte) (c : Byte) : (s.raiseDecodeError addr op).readMem c = s.readMem c := rfl

/-- A register reads the value of the latest write to it (10_state.md R11). -/
@[simp] theorem State.setReg_getReg (s : State) (r q : Reg) (v : Byte) :
    (s.setReg r v).getReg q = if q = r then v else s.getReg q := by
  simp [State.getReg, State.setReg, Vector.getElem_set, Fin.ext_iff, eq_comm]

/-! ### The derived operations in terms of the updates -/

@[simp] theorem spIndex_eq : Config.spIndex = 7 := rfl
@[simp] theorem memSize_eq : Config.memSize = 256 := rfl
@[simp] theorem State.sp_eq (s : State) : s.sp = s.getReg 7 := rfl
@[simp] theorem State.decSp_eq (s : State) : s.decSp = s.setReg 7 (s.getReg 7 - 1) := rfl
@[simp] theorem State.incSp_eq (s : State) : s.incSp = s.setReg 7 (s.getReg 7 + 1) := rfl
@[simp] theorem State.loadTop_eq (s : State) : s.loadTop = s.readMem (s.getReg 7) := rfl
@[simp] theorem State.storeTop_eq (s : State) (v : Byte) : s.storeTop v = s.writeMem (s.getReg 7) v := rfl
@[simp] theorem State.advance_eq (s : State) (n : Byte) : s.advance n = s.jump (s.pc + n) := rfl
@[simp] theorem State.afterTwoBytes_eq (s : State) : s.afterTwoBytes = s.pc + 2 := rfl
@[simp] theorem State.regOperand_eq (s : State) (a : RegOperand) : s.regOperand a = s.getReg (ridx a) := rfl
@[simp] theorem State.setRegOperand_eq (s : State) (a : RegOperand) (v : Byte) :
    s.setRegOperand a v = s.setReg (ridx a) v := rfl

/-! ### The fetch -/

@[simp] theorem State.fetch_op (s : State) : s.fetch.op = s.readMem s.pc := rfl
@[simp] theorem State.fetch_a (s : State) : s.fetch.a = s.readMem (s.pc + 1) := rfl
@[simp] theorem State.fetch_b (s : State) : s.fetch.b = s.readMem (s.pc + 2) := rfl

end Sys2Proof.Machine
end

