-- ==== Sys2Proof/Laws/Memory.lean ====
section
/-! SUPPORT. The laws of memory (20_memory.md R31): a read after a write, in every memory whether canonical or not, and
that every memory operation keeps the canonical form. -/

namespace Sys2Proof.Machine

theorem Memory.read_drop (m : Memory) (addr c : Byte) :
    (m.drop addr).read c = if c = addr then Memory.unlisted else m.read c := by
  induction m with
  | nil => simp [Memory.drop, Memory.read]
  | cons d rest ih =>
    simp only [Memory.drop, List.filter_cons] at ih ⊢
    by_cases hd : d.1 = addr.toNat
    · rw [if_neg (by simp [hd]), ih]
      by_cases hc : c = addr
      · simp [hc]
      · have : addr.toNat ≠ c.toNat := fun h => hc (BitVec.eq_of_toNat_eq h.symm)
        simp [Memory.read, hd, hc, this]
    · rw [if_pos (by simp [hd])]
      by_cases hc : c = addr
      · subst hc; simpa [Memory.read, hd] using ih
      · simp only [Memory.read, ih, hc, if_false]

theorem Memory.read_insert (m : Memory) (addr v c : Byte) :
    ((m.drop addr).insert addr v).read c = if c = addr then v else m.read c := by
  have key : ∀ l : Memory, (∀ d ∈ l, d.1 ≠ addr.toNat) →
      (l.insert addr v).read c = if c = addr then v else l.read c := by
    intro l
    induction l with
    | nil =>
      intro _
      by_cases hc : c = addr
      · simp [Memory.insert, Memory.read, hc]
      · have : addr.toNat ≠ c.toNat := fun h => hc (BitVec.eq_of_toNat_eq h.symm)
        simp [Memory.insert, Memory.read, hc, this]
    | cons d rest ih =>
      intro hl
      have hd : d.1 ≠ addr.toNat := hl d (by simp)
      have ih' := ih (fun e he => hl e (by simp [he]))
      by_cases hc : c = addr
      · subst hc
        simp only [Memory.insert]
        split
        · simp [Memory.read]
        · simpa [Memory.read, hd] using ih'
      · have hne : addr.toNat ≠ c.toNat := fun h => hc (BitVec.eq_of_toNat_eq h.symm)
        simp only [Memory.insert]
        split
        · simp [Memory.read, hne]
        · simp only [Memory.read, ih', hc, if_false]
  rw [key _ (by simp [Memory.drop]), Memory.read_drop]
  by_cases hc : c = addr <;> simp [hc]

/-- A read after a write: the written cell gives the value, every other cell what it gave before. -/
theorem Memory.read_write (m : Memory) (addr v c : Byte) :
    (m.write addr v).read c = if c = addr then v else m.read c := by
  unfold Memory.write
  split
  · next h => rw [Memory.read_drop, h]
  · exact Memory.read_insert m addr v c

@[simp] theorem State.writeMem_readMem (s : State) (addr v c : Byte) :
    (s.writeMem addr v).readMem c = if c = addr then v else s.readMem c :=
  Memory.read_write s.mem addr v c

theorem Memory.drop_wf {m : Memory} (h : m.wf) (addr : Byte) : (m.drop addr).wf :=
  ⟨h.1.filter _, fun c hc => h.2 c (List.mem_of_mem_filter hc)⟩

theorem Memory.mem_insert {m : Memory} {addr v : Byte} {c : Host.Cell} (h : c ∈ m.insert addr v) :
    c = (addr.toNat, v) ∨ c ∈ m := by
  induction m with
  | nil => simpa [Memory.insert] using h
  | cons d rest ih =>
    simp only [Memory.insert] at h
    split at h
    · simpa using h
    · rcases List.mem_cons.1 h with h | h
      · exact .inr (by simp [h])
      · exact (ih h).imp_right (fun h => by simp [h])

theorem Memory.insert_wf {m : Memory} (h : m.wf) (addr v : Byte) (hv : v ≠ Memory.unlisted)
    (hm : ∀ d ∈ m, d.1 ≠ addr.toNat) : (m.insert addr v).wf := by
  refine ⟨?_, fun c hc => ?_⟩
  · induction m with
    | nil => simp [Memory.insert]
    | cons d rest ih =>
      have hp := List.pairwise_cons.1 h.1
      have ih' := ih ⟨hp.2, fun c hc => h.2 c (by simp [hc])⟩ (fun e he => hm e (by simp [he]))
      simp only [Memory.insert]
      split
      · next hlt =>
        refine List.pairwise_cons.2 ⟨fun e he => ?_, h.1⟩
        rcases List.mem_cons.1 he with rfl | he
        · exact hlt
        · exact Nat.lt_trans hlt (hp.1 e he)
      · next hge =>
        refine List.pairwise_cons.2 ⟨fun e he => ?_, ih'⟩
        rcases Memory.mem_insert he with rfl | he
        · have := hm d (by simp)
          exact Nat.lt_of_le_of_ne (Nat.not_lt.1 hge) this
        · exact hp.1 e he
  · rcases Memory.mem_insert hc with rfl | hc
    · exact ⟨addr.isLt, hv⟩
    · exact h.2 c hc

/-- A write keeps the canonical form. -/
theorem Memory.write_wf {m : Memory} (h : m.wf) (addr v : Byte) : (m.write addr v).wf := by
  unfold Memory.write
  split
  · exact Memory.drop_wf h addr
  · next hv => exact Memory.insert_wf (Memory.drop_wf h addr) addr v hv (by simp [Memory.drop])

/-- Writing a byte sequence keeps the canonical form. -/
theorem State.writeBytes_wf (bytes : List Byte) : ∀ (s : State) (addr : Byte), s.mem.wf → (s.writeBytes addr bytes).mem.wf := by
  induction bytes with
  | nil => exact fun s _ h => h
  | cons v rest ih => exact fun s addr h => ih (s.writeMem addr v) (addr + 1) (Memory.write_wf h addr v)

/-- Writing a byte sequence changes memory alone. -/
theorem State.writeBytes_rest (bytes : List Byte) :
    ∀ (s : State) (addr : Byte), { s.writeBytes addr bytes with mem := s.mem } = s := by
  induction bytes with
  | nil => exact fun _ _ => rfl
  | cons v rest ih =>
    exact fun s addr => congrArg (fun t : State => { t with mem := s.mem }) (ih (s.writeMem addr v) (addr + 1))

/-- What each cell reads as after a byte sequence that does not wrap is written from address `a`. -/
theorem State.writeBytes_readMem (bytes : List Byte) : ∀ (s : State) (a : Nat), a + bytes.length ≤ 256 → ∀ k, k < 256 →
    (s.writeBytes (BitVec.ofNat 8 a) bytes).readMem (BitVec.ofNat 8 k) =
      if a ≤ k ∧ k < a + bytes.length then bytes.getD (k - a) 0 else s.readMem (BitVec.ofNat 8 k) := by
  induction bytes with
  | nil => intro s a _ k _; simp [State.writeBytes]
  | cons v rest ih =>
    intro s a ha k hk
    have hlen : a + (rest.length + 1) ≤ 256 := ha
    have hrest := ih (s.writeMem (BitVec.ofNat 8 a) v) (a + 1) (by omega) k hk
    rw [BitVec.ofNat_add] at hrest
    refine Eq.trans hrest ?_
    by_cases hka : a = k
    · subst hka; simp
    · have hne : BitVec.ofNat 8 k ≠ BitVec.ofNat 8 a := fun h => by
        have := congrArg BitVec.toNat h
        simp at this
        omega
      rw [State.writeMem_readMem, if_neg hne]
      by_cases hin : a + 1 ≤ k ∧ k < a + 1 + rest.length
      · rw [if_pos hin, if_pos (by simp only [List.length_cons]; omega)]
        obtain ⟨j, rfl⟩ : ∃ j, k = a + 1 + j := ⟨k - (a + 1), by omega⟩
        rw [show a + 1 + j - (a + 1) = j by omega, show a + 1 + j - a = j + 1 by omega, List.getD_cons_succ]
      · rw [if_neg hin, if_neg (by simp only [List.length_cons]; omega)]

/-- The memory of the reset state is canonical. -/
theorem reset_mem_wf : State.reset.mem.wf := ⟨List.Pairwise.nil, by simp [State.reset]⟩

end Sys2Proof.Machine
end

