-- ==== Sys2Proof/Laws/PerInstr.lean ====
section
/-! SUPPORT. The per-instruction family `EncodedLength` of LAWS.json: the encoding of an instruction begins with its
mnemonic's byte and has the length the opcode alone gives (30_encoding.md R50, R56). -/

namespace Sys2Proof.Laws.EncodedLength

/-- Under any opcode map the encoding begins with the mnemonic's byte, has `i.length` bytes, and that is 1, 2 or 3. -/
def Statement (i : Instr) : Prop :=
  ∀ m : OpcodeMap, (encodeWith m i).head? = some (m i.opcode) ∧ (encodeWith m i).length = i.length ∧
    1 ≤ i.length ∧ i.length ≤ 3

theorem operandCount_le (c : Opcode) : c.operandCount ≤ 2 := by cases c <;> decide

theorem of_operands (i : Instr) (h : i.operands.length = i.opcode.operandCount) : Statement i := fun m =>
  ⟨rfl, by simp [encodeWith, Instr.length, h, Nat.add_comm], Nat.le_add_right 1 _,
    Nat.add_le_add_left (operandCount_le i.opcode) 1⟩

theorem ldi (a : RegOperand) (imm : Byte) : Statement (.ldi a imm) := of_operands _ rfl
theorem prn (a : RegOperand) : Statement (.prn a) := of_operands _ rfl
theorem add (a b : RegOperand) : Statement (.add a b) := of_operands _ rfl
theorem mlt (a b : RegOperand) : Statement (.mlt a b) := of_operands _ rfl
theorem push (a : RegOperand) : Statement (.push a) := of_operands _ rfl
theorem pop (a : RegOperand) : Statement (.pop a) := of_operands _ rfl
theorem call (a : RegOperand) : Statement (.call a) := of_operands _ rfl
theorem ret : Statement .ret := of_operands _ rfl
theorem cmp (a b : RegOperand) : Statement (.cmp a b) := of_operands _ rfl
theorem jmp (a : RegOperand) : Statement (.jmp a) := of_operands _ rfl
theorem jeq (a : RegOperand) : Statement (.jeq a) := of_operands _ rfl
theorem jne (a : RegOperand) : Statement (.jne a) := of_operands _ rfl
theorem hlt : Statement .hlt := of_operands _ rfl
theorem nop : Statement .nop := of_operands _ rfl

end Sys2Proof.Laws.EncodedLength
end

