-- ==== Sys2Proof/Laws/Step.lean ====
section
/-! SUPPORT. What a step can do, said once (40_fetch_decode_loop.md R76), and the next state of each instruction. -/

namespace Sys2Proof.Machine

/-- If a step answers a next state, the machine was running, and it ran the decoded instruction or raised DecodeError. -/
theorem stepWith_cases {m : OpcodeMap} {s t : State} (h : stepWith m s = .next t) :
    s.running = true ∧
    ((∃ i, decodeWith m s.fetch = .ok i ∧ exec i s = .next t) ∨
     ((∀ c, m c ≠ s.fetch.op) ∧ t = s.raiseDecodeError s.pc s.fetch.op)) := by
  unfold stepWith at h
  split at h
  · next hr =>
    refine ⟨hr, ?_⟩
    rcases decodeWith_cases m s.fetch with ⟨c, -, hd⟩ | ⟨hn, hd⟩
    · exact .inl ⟨_, hd, by simpa only [hd, execDecoded] using h⟩
    · rw [hd] at h
      exact .inr ⟨hn, (Host.Outcome.next.inj h).symm⟩
  · cases h

/-- A halted machine has no step. -/
theorem stepWith_halted {m : OpcodeMap} {s : State} (h : s.running = false) : stepWith m s = .fault .halted := by
  simp [stepWith, h]

/-- A run goes on from the state its first step answers. -/
theorem core_run_succ_of_next {k : Nat} {s t : State} (h : step s = .next t) :
    Sys2Proof.core.run (k + 1) s = Sys2Proof.core.run k t := by
  have h' : Sys2Proof.core.step s = .next t := h
  simp only [Host.Core.run]
  rw [h']

/-- A run stops at once at a state that is halted. -/
theorem core_run_succ_of_halted {k : Nat} {s : State} (h : s.running = false) :
    Sys2Proof.core.run (k + 1) s = .fault Fault.halted := by
  have h' : Sys2Proof.core.step s = .fault Fault.halted := stepWith_halted h
  simp only [Host.Core.run]
  rw [h']

theorem execLdi_next (a : RegOperand) (imm : Byte) (s : State) :
    exec (.ldi a imm) s = .next ((s.setReg (ridx a) imm).jump (s.pc + 3)) := rfl

theorem execPrn_next (a : RegOperand) (s : State) :
    exec (.prn a) s = .next ((s.emit (s.getReg (ridx a))).jump (s.pc + 2)) := rfl

theorem execAdd_next (a b : RegOperand) (s : State) :
    exec (.add a b) s = .next ((s.setReg (ridx a) (s.getReg (ridx a) + s.getReg (ridx b))).jump (s.pc + 3)) := rfl

theorem execMlt_next (a b : RegOperand) (s : State) :
    exec (.mlt a b) s = .next ((s.setReg (ridx a) (s.getReg (ridx a) * s.getReg (ridx b))).jump (s.pc + 3)) := rfl

theorem execCmp_next (a b : RegOperand) (s : State) :
    exec (.cmp a b) s = .next ((s.setE (decide (s.getReg (ridx a) = s.getReg (ridx b)))).jump (s.pc + 3)) := rfl

theorem execPush_next (a : RegOperand) (s : State) :
    exec (.push a) s = .next (((s.setReg 7 (s.getReg 7 - 1)).writeMem (s.getReg 7 - 1)
      (if ridx a = 7 then s.getReg 7 - 1 else s.getReg (ridx a))).jump (s.pc + 2)) := by
  simp [exec, execPush]

theorem execPop_next (a : RegOperand) (s : State) :
    exec (.pop a) s = .next (((s.setReg (ridx a) (s.readMem (s.getReg 7))).setReg 7
      ((if ridx a = 7 then s.readMem (s.getReg 7) else s.getReg 7) + 1)).jump (s.pc + 2)) := by
  simp [exec, execPop, eq_comm]

theorem execCall_next (a : RegOperand) (s : State) :
    exec (.call a) s = .next (((s.setReg 7 (s.getReg 7 - 1)).writeMem (s.getReg 7 - 1) (s.pc + 2)).jump
      (if ridx a = 7 then s.getReg 7 - 1 else s.getReg (ridx a))) := by
  simp [exec, execCall, State.pushReturn]

theorem execRet_next (s : State) :
    exec .ret s = .next ((s.setReg 7 (s.getReg 7 + 1)).jump (s.readMem (s.getReg 7))) := rfl

theorem execJmp_next (a : RegOperand) (s : State) : exec (.jmp a) s = .next (s.jump (s.getReg (ridx a))) := rfl

theorem execJeq_next (a : RegOperand) (s : State) :
    exec (.jeq a) s = .next (s.jump (if s.e then s.getReg (ridx a) else s.pc + 2)) := rfl

theorem execJne_next (a : RegOperand) (s : State) :
    exec (.jne a) s = .next (s.jump (if s.e then s.pc + 2 else s.getReg (ridx a))) := by
  cases h : s.e <;> simp [exec, execJne, State.branchTarget, h]

theorem execHlt_next (s : State) : exec .hlt s = .next s.halt := rfl

theorem execNop_next (s : State) : exec .nop s = .next (s.jump (s.pc + 1)) := rfl

end Sys2Proof.Machine
end

