-- ==== Sys2Proof/Machine/Assembly.lean ====
section
/-! DEFINITION. The assembler form of an instruction (30_encoding.md R59; DESIGN CHOICE, safe, log 15: the spec's own
decision D14). The machine's step uses nothing of this file. -/

namespace Sys2Proof.Machine

/-- A mnemonic in capitals (30_encoding.md R53, R59). -/
def Opcode.text : Opcode → String
  | .ldi => "LDI"
  | .prn => "PRN"
  | .add => "ADD"
  | .mlt => "MLT"
  | .push => "PUSH"
  | .pop => "POP"
  | .call => "CALL"
  | .ret => "RET"
  | .cmp => "CMP"
  | .jmp => "JMP"
  | .jeq => "JEQ"
  | .jne => "JNE"
  | .hlt => "HLT"
  | .nop => "NOP"

/-- A register operand, written `R0` to `R7`. -/
def regText (a : RegOperand) : String := "R" ++ toString (ridx a).val

/-- The operands of an instruction: operand A first, then a comma and operand B; an immediate in decimal. -/
def operandText : Instr → String
  | .ldi a imm => " " ++ regText a ++ "," ++ toString imm.toNat
  | .prn a => " " ++ regText a
  | .add a b => " " ++ regText a ++ "," ++ regText b
  | .mlt a b => " " ++ regText a ++ "," ++ regText b
  | .push a => " " ++ regText a
  | .pop a => " " ++ regText a
  | .call a => " " ++ regText a
  | .ret => ""
  | .cmp a b => " " ++ regText a ++ "," ++ regText b
  | .jmp a => " " ++ regText a
  | .jeq a => " " ++ regText a
  | .jne a => " " ++ regText a
  | .hlt => ""
  | .nop => ""

/-- An instruction as the spec's examples write it (30_encoding.md R59). -/
def instrText (i : Instr) : String := Opcode.text i.opcode ++ operandText i

end Sys2Proof.Machine
end

