-- ==== Sys2Proof/Machine/HostView.lean ====
section
/-! DEFINITION. What the host sees: the report of a finished run (40_fetch_decode_loop.md R78), the text the sink shows
(41_data_movement.md R86) and the optional trace (60_exceptions.md R133). Read only: the machine's step uses nothing
of this file. -/

namespace Sys2Proof.Machine

/-- "What a finished run hands the host" (40_fetch_decode_loop.md R78). -/
structure HostReport where
  out : List Byte
  fault : Option DecodeError
  mem : Memory
  x : Vector Byte 8
  pc : Byte
  e : Bool
deriving DecidableEq, Repr

/-- The report, which the host may read only after the run (70_reset_and_hazards.md R149; log 23). -/
def State.hostReport (s : State) : Option HostReport :=
  if s.running then none
  else some { out := s.out, fault := s.fault, mem := s.mem, x := s.x, pc := s.pc, e := s.e }

/-- The line the sink shows for one emitted byte: an unsigned decimal with no padding (41_data_movement.md R86). -/
def sinkLine (v : Byte) : String := toString v.toNat

/-- The lines the sink shows, in execution order, one value a line (10_state.md R21). -/
def State.sinkLines (s : State) : List String := s.out.map sinkLine

/-- What the optional trace printer dumps (60_exceptions.md R133). -/
structure TraceView where
  pc : Byte
  bytes : Fetched
  x : Vector Byte 8
deriving DecidableEq, Repr

/-- The trace of a state: `pc`, the three bytes at `pc` and all eight registers (60_exceptions.md R133). It changes nothing. -/
def State.trace (s : State) : TraceView := { pc := s.pc, bytes := s.fetch, x := s.x }

end Sys2Proof.Machine
end

