-- ==== Sys2Proof/Tests/Slice0.lean ====
section
/-! SUPPORT. The model's own tests. Expected results come from the spec: the encodings of 30_encoding.md and
opcode_table.json, the examples of the instruction rules and the vectors S1 to S10 and V1 to V49 of 95_test_vectors.md.
Then a witness for the hypotheses of every statement that has some. -/

namespace Sys2Proof.Tests

open Sys2Proof Sys2Proof.Machine

/-! ## Helpers -/

/-- The next state of an outcome, if there is one. -/
def after (o : Host.Outcome State Fault Refusal) : Option State :=
  match o with
  | .next s => some s
  | .fault _ => none
  | .refused _ => none

/-- The reset state with some bytes at an address and the pc there. -/
def at' (addr : Byte) (bytes : List Byte) : State := (State.reset.writeBytes addr bytes).jump addr

/-- One step from such a state, after a change of it. -/
def run1 (addr : Byte) (bytes : List Byte) (f : State → State) : Option State := after (step (f (at' addr bytes)))

/-! ## Well-formedness: an ill-formed term for each check (30_encoding.md R62) -/

theorem test_wf_ldi_refuses : (Instr.ldi 0x0B 0x2A).wellFormed = false := by decide
theorem test_wf_prn_refuses : (Instr.prn 0x08).wellFormed = false := by decide
theorem test_wf_add_refuses : (Instr.add 0x08 0x00).wellFormed = false ∧ (Instr.add 0x00 0x08).wellFormed = false := by decide
theorem test_wf_mlt_refuses : (Instr.mlt 0x08 0x00).wellFormed = false ∧ (Instr.mlt 0x00 0x08).wellFormed = false := by decide
theorem test_wf_cmp_refuses : (Instr.cmp 0xFF 0x00).wellFormed = false ∧ (Instr.cmp 0x00 0xFF).wellFormed = false := by decide
theorem test_wf_push_pop_refuse : (Instr.push 0x08).wellFormed = false ∧ (Instr.pop 0x08).wellFormed = false := by decide
theorem test_wf_call_jmp_refuse : (Instr.call 0x08).wellFormed = false ∧ (Instr.jmp 0x08).wellFormed = false := by decide
theorem test_wf_jeq_jne_refuse : (Instr.jeq 0x08).wellFormed = false ∧ (Instr.jne 0x08).wellFormed = false := by decide
theorem test_wf_accepts : (Instr.ldi 0x07 0xFF).wellFormed = true ∧ (Instr.add 0x07 0x00).wellFormed = true := by decide

/-! ## Decoding: one word written out per constructor (the "encoding" strings of opcode_table.json) -/

theorem test_decode_ldi : decode { op := 0b10000010, a := 0b00000101, b := 0b11001010 } = .ok (.ldi 5 0xCA) := by decide
theorem test_decode_prn : decode { op := 0b01000111, a := 0b00000110, b := 0b11111111 } = .ok (.prn 6) := by decide
theorem test_decode_add : decode { op := 0b10100000, a := 0b00000011, b := 0b00000100 } = .ok (.add 3 4) := by decide
theorem test_decode_mlt : decode { op := 0b10100010, a := 0b00000001, b := 0b00000010 } = .ok (.mlt 1 2) := by decide
theorem test_decode_push : decode { op := 0b01000101, a := 0b00000111, b := 0b11111111 } = .ok (.push 7) := by decide
theorem test_decode_pop : decode { op := 0b01000110, a := 0b00000100, b := 0b11111111 } = .ok (.pop 4) := by decide
theorem test_decode_call : decode { op := 0b01010000, a := 0b00000001, b := 0b11111111 } = .ok (.call 1) := by decide
theorem test_decode_ret : decode { op := 0b00010001, a := 0b11111111, b := 0b11111111 } = .ok .ret := by decide
theorem test_decode_cmp : decode { op := 0b10100111, a := 0b00000010, b := 0b00000101 } = .ok (.cmp 2 5) := by decide
theorem test_decode_jmp : decode { op := 0b01010100, a := 0b00000010, b := 0b11111111 } = .ok (.jmp 2) := by decide
theorem test_decode_jeq : decode { op := 0b01010101, a := 0b00000011, b := 0b11111111 } = .ok (.jeq 3) := by decide
theorem test_decode_jne : decode { op := 0b01010110, a := 0b00000011, b := 0b11111111 } = .ok (.jne 3) := by decide
theorem test_decode_hlt : decode { op := 0b00000001, a := 0b11111111, b := 0b11111111 } = .ok .hlt := by decide
theorem test_decode_nop : decode { op := 0b00000000, a := 0b11111111, b := 0b11111111 } = .ok .nop := by decide

/-- 0xA1 is SUB in the published family and illegal here (V49); 0x02 is illegal (V48). -/
theorem test_decode_illegal : decode { op := 0xA1, a := 0, b := 1 } = .error (.unknownOpcode 0xA1) ∧
    decode { op := 0x02, a := 0, b := 0 } = .error (.unknownOpcode 0x02) := by decide

/-- The operand counts the document gives (30_encoding.md R53) agree with bits 7:6 of the opcode bytes, and bit 4 marks the
instructions that set the pc themselves (R54, informative). -/
theorem test_opcode_structure : ∀ c ∈ Opcode.all, (opcodeMap c).toNat / 64 = c.operandCount ∧
    ((opcodeMap c).getLsbD 4 = true ↔ c ∈ [Opcode.call, .ret, .jmp, .jeq, .jne]) := by decide

/-- A table word of three bytes, its first byte least significant: `82 00 08` (R85's example); bits above `nbits` are 0. -/
theorem test_table_word : decodeTableWord 24 0x080082 = some (.ldi 0 8) ∧ decodeTableWord 8 0x0800A0 = some (.add 0 0) := by decide

/-! ## One step from a small state -/

/-- V1. -/
theorem test_ldi : (run1 0x00 [0x82, 0x03, 0xFF] id).map (fun t => (t.getReg 3, t.pc)) = some (0xFF, 0x03) := by decide
/-- V4: the bytes wrap from 0xFF to 0x00. -/
theorem test_ldi_wraps : (run1 0xFE [0x82, 0x01, 0x77] id).map (fun t => (t.getReg 1, t.pc)) = some (0x77, 0x01) := by decide
/-- V5. -/
theorem test_prn : (run1 0x00 [0x47, 0x00] (·.setReg 0 255)).map (fun t => (t.out, t.pc)) = some ([255], 0x02) := by decide
/-- V7: PRN R7 emits the stack pointer. -/
theorem test_prn_sp : (run1 0x00 [0x47, 0x07] id).map (fun t => t.out) = some [244] := by decide
/-- V8, S5. -/
theorem test_add : (run1 0x00 [0xA0, 0x00, 0x01] (fun s => (s.setReg 0 250).setReg 1 10)).map
    (fun t => (t.getReg 0, t.getReg 1, t.pc)) = some (4, 10, 0x03) := by decide
/-- V10: a register added to itself. -/
theorem test_add_self : (run1 0x00 [0xA0, 0x01, 0x01] (·.setReg 1 0x80)).map (fun t => t.getReg 1) = some 0x00 := by decide
/-- V15. -/
theorem test_mlt_wraps : (run1 0x00 [0xA2, 0x00, 0x01] (fun s => (s.setReg 0 255).setReg 1 255)).map
    (fun t => (t.getReg 0, t.pc)) = some (1, 0x03) := by decide
/-- V17. -/
theorem test_mlt_self : (run1 0x00 [0xA2, 0x02, 0x02] (·.setReg 2 0x0F)).map (fun t => t.getReg 2) = some 0xE1 := by decide
/-- V19. -/
theorem test_cmp_equal : (run1 0x00 [0xA7, 0x00, 0x01] (fun s => (s.setReg 0 7).setReg 1 7)).map
    (fun t => (t.e, t.pc)) = some (true, 0x03) := by decide
/-- V20: the flag is cleared. -/
theorem test_cmp_unequal : (run1 0x00 [0xA7, 0x00, 0x01] (fun s => ((s.setReg 0 7).setReg 1 8).setE true)).map
    (fun t => t.e) = some false := by decide
/-- V24: SP wraps from 0x00 to 0xFF. -/
theorem test_push_wraps : (run1 0x10 [0x45, 0x00] (fun s => (s.setReg 0 0xAB).setReg 7 0x00)).map
    (fun t => (t.sp, t.readMem 0xFF, t.pc)) = some (0xFF, 0xAB, 0x12) := by decide
/-- V25: PUSH R7 stores the decremented SP. -/
theorem test_push_sp : (run1 0x00 [0x45, 0x07] id).map (fun t => (t.sp, t.readMem 0xF3)) = some (0xF3, 0xF3) := by decide
/-- V26. -/
theorem test_pop : (run1 0x00 [0x46, 0x01] (fun s => (s.setReg 7 0xF3).writeMem 0xF3 0xAB)).map
    (fun t => (t.getReg 1, t.sp, t.readMem 0xF3, t.pc)) = some (0xAB, 0xF4, 0xAB, 0x02) := by decide
/-- V28: POP R7. -/
theorem test_pop_sp : (run1 0x00 [0x46, 0x07] (fun s => (s.setReg 7 0xF3).writeMem 0xF3 0x20)).map (fun t => t.sp) = some 0x21 := by
  decide
/-- V32: the return address wraps. -/
theorem test_call : (run1 0xFF [0x50, 0x01] (·.setReg 1 0x30)).map (fun t => (t.sp, t.readMem 0xF3, t.pc)) =
    some (0xF3, 0x01, 0x30) := by decide
/-- V33: CALL R7 goes to the decremented SP. -/
theorem test_call_sp : (run1 0x08 [0x50, 0x07] id).map (fun t => (t.sp, t.readMem 0xF3, t.pc)) = some (0xF3, 0x0A, 0xF3) := by
  decide
/-- V34. -/
theorem test_ret : (run1 0x30 [0x11] (fun s => (s.setReg 7 0xF3).writeMem 0xF3 0x0A)).map (fun t => (t.pc, t.sp)) =
    some (0x0A, 0xF4) := by decide
/-- V35: an empty stack is no fault. -/
theorem test_ret_empty : (run1 0x30 [0x11] id).map (fun t => (t.pc, t.sp, t.running)) = some (0x00, 0xF5, true) := by decide
/-- V37: a JMP to itself leaves the same state. -/
theorem test_jmp_self : run1 0x10 [0x54, 0x02] (·.setReg 2 0x10) = some ((at' 0x10 [0x54, 0x02]).setReg 2 0x10) := by decide
/-- V38. -/
theorem test_jeq_taken : (run1 0x14 [0x55, 0x03] (fun s => (s.setReg 3 0x0C).setE true)).map (fun t => (t.pc, t.e)) =
    some (0x0C, true) := by decide
/-- V42: not taken, the pc wraps. -/
theorem test_jeq_not_taken : (run1 0xFF [0x55, 0x03] (·.setReg 3 0x0C)).map (fun t => t.pc) = some 0x01 := by decide
/-- V40. -/
theorem test_jne_taken : (run1 0x14 [0x56, 0x03] (·.setReg 3 0x0C)).map (fun t => t.pc) = some 0x0C := by decide
/-- V41. -/
theorem test_jne_not_taken : (run1 0x14 [0x56, 0x03] (fun s => (s.setReg 3 0x0C).setE true)).map (fun t => t.pc) = some 0x16 := by
  decide
/-- V44. -/
theorem test_hlt : (run1 0xFF [0x01] id).map (fun t => (t.running, t.pc, t.fault)) = some (false, 0xFF, none) := by decide
/-- V45, S10. -/
theorem test_nop : run1 0x20 [0x00] id = some ((at' 0x20 [0x00]).jump 0x21) := by decide
/-- V46. -/
theorem test_nop_wraps : (run1 0xFF [0x00] id).map (fun t => t.pc) = some 0x00 := by decide
/-- V47, S7. -/
theorem test_illegal : (run1 0x03 [0xFF] (·.setReg 0 1)).map (fun t => (t.running, t.fault, t.pc, t.getReg 0)) =
    some (false, some { addr := 0x03, opcode := 0xFF }, 0x03, 1) := by decide
/-- V3: operand byte 0x0B selects R3. -/
theorem test_operand_byte_wraps : (run1 0x00 [0x82, 0x0B, 0x2A] id).map (fun t => t.getReg 3) = some 0x2A := by decide
/-- After V43 no step exists (R70). -/
theorem test_halted_has_no_step : step State.reset.halt = .fault .halted := by rfl
/-- A table word placed at the next fetch is what the step runs (LDI R0,8). -/
theorem test_with_fetch_word : (after (step (State.reset.withFetchWord 24 0x080082))).map (fun t => (t.getReg 0, t.pc)) =
    some (8, 0x03) := by decide

/-! ## Reset, boot, text -/

/-- 10_state.md R25. -/
theorem test_reset : State.reset.x.toList = [0, 0, 0, 0, 0, 0, 0, 0xF4] ∧ State.reset.pc = 0 ∧ State.reset.running = true := by decide
/-- The image of 30_encoding.md R61's example, loaded from its text. -/
theorem test_image_text : parseImage "10000010 # LDI R0,8\n00000000\n00001000\n\n00000001 # HLT\n".toList =
    .ok [0x82, 0x00, 0x08, 0x01] := by decide
/-- Malformed text and a value above 255 fail the load (R61, R128, D13). -/
theorem test_image_errors : parseImage "0b1".toList = .error .malformedLine ∧
    parseImage "100000000".toList = .error .valueTooLarge := by decide
/-- The sink shows 0xFF as `255` (R86); the assembler form of R59. -/
theorem test_text : sinkLine 0xFF = "255" ∧ instrText (.ldi 0 8) = "LDI R0,8" ∧ instrText (.mlt 0 1) = "MLT R0,R1" ∧
    instrText .hlt = "HLT" := by decide
/-- The report is there only after the run (R78, R149). -/
theorem test_report : State.reset.hostReport = none ∧ (State.reset.halt.hostReport).map (fun r => r.pc) = some 0 := by decide

/-! ## Witnesses: the hypotheses of each statement can be met -/

theorem opcodeMap_injective : opcodeMap.Injective := by
  intro c d; cases c <;> cases d <;> decide

/-- A running state at an illegal byte, and what its step answers. -/
def illegalState : State := at' 0xFE [0xFF]

theorem illegalState_illegal : IllegalOpcode opcodeMap illegalState := by
  intro c; cases c <;> decide

theorem illegalState_step : stepWith opcodeMap illegalState = .next (illegalState.raiseDecodeError 0xFE 0xFF) := by rfl

theorem nop_not_illegal : ¬ IllegalOpcode opcodeMap State.reset := fun h => h .nop (by decide)

theorem reset_steps : stepWith opcodeMap State.reset = .next (State.reset.jump 1) := by rfl

/-- For DecodeAnswersExactlyTheEncodedInstruction. -/
theorem witness_decode : opcodeMap.Injective ∧
    decodeWith opcodeMap { op := 0x45, a := 0xFF, b := 0x00 } = .ok (.push 0xFF) ∧
    encodeWith opcodeMap (.push 0xFF) <+: Fetched.toList { op := 0x45, a := 0xFF, b := 0x00 } :=
  ⟨opcodeMap_injective, by decide, by decide⟩

/-- For IllegalOpcodesAreTheUnmappedBytes (both sides of its equivalences). -/
theorem witness_unmapped : (∀ c : Opcode, opcodeMap c ≠ 0xFF) ∧ opcodeMap .ldi = 0x82 :=
  ⟨by intro c; cases c <;> decide, by decide⟩

/-- For BytesBeyondTheInstructionAreIgnored. -/
theorem witness_bytes_beyond : decodeWith opcodeMap { op := 0x45, a := 0x01, b := 0x00 } = .ok (.push 1) ∧
    (Fetched.toList { op := 0x45, a := 0x01, b := 0xFF }).take (Instr.push 1).length =
      (Fetched.toList { op := 0x45, a := 0x01, b := 0x00 }).take (Instr.push 1).length := by decide

/-- For StepRunsTheDecodedInstruction. -/
theorem witness_step_runs : State.reset.running = true ∧ decode State.reset.fetch = .ok .nop ∧
    decodeWith opcodeMap State.reset.fetch = .ok .nop := by decide

/-- For StepRunsTheInstructionStoredAtPc, with the bytes wrapping past 0xFF. -/
theorem witness_stored_at_pc : opcodeMap.Injective ∧ (at' 0xFE [0x82, 0x01, 0x77]).running = true ∧
    ∀ k : Nat, k < (encodeWith opcodeMap (.ldi 0x01 0x77)).length →
      some ((at' 0xFE [0x82, 0x01, 0x77]).readMem ((at' 0xFE [0x82, 0x01, 0x77]).pc + BitVec.ofNat 8 k)) =
        (encodeWith opcodeMap (.ldi 0x01 0x77))[k]? :=
  ⟨opcodeMap_injective, by decide, by decide⟩

/-- For StepExistsExactlyWhileRunning (both sides). -/
theorem witness_step_exists : State.reset.running = true ∧ State.reset.halt.running = false := by decide

/-- For IllegalOpcodeTakesTheDecodeError and the decode-error clauses of EveryInstructionSetsThePcOfTheTable,
EqualIsWrittenByCmpAndReadByConditionalJumps, OnlyPushAndCallWriteMemory and RegistersChangeOnlyWhereNamed. -/
theorem witness_illegal : illegalState.running = true ∧ IllegalOpcode opcodeMap illegalState ∧
    ∃ t, stepWith opcodeMap illegalState = .next t :=
  ⟨by decide, illegalState_illegal, _, illegalState_step⟩

/-- Both clauses of PushStoresBelowTheStackPointer, PopLoadsTheTopOfStack, CallPushesTheReturnAddressAndJumps,
PushThenPopMovesTheValue and PushThenRetJumpsToTheRegister: an operand that is R7 (also as byte 0xFF) and one that is not. -/
theorem witness_operand_r7 : ridx 0xFF = 7 ∧ ridx 0x07 = 7 ∧ ridx 0x00 ≠ 7 ∧ ridx 0x06 ≠ 7 := by decide

/-- Both clauses of JeqJumpsWhenEqualIsSet and JneJumpsWhenEqualIsClear: the flag set and clear. -/
theorem witness_flag : State.reset.e = false ∧ (State.reset.setE true).e = true := by decide

/-- For EqualIsWrittenByCmpAndReadByConditionalJumps. -/
theorem witness_flag_frame : exec (.cmp 0 1) State.reset = .next ((State.reset.setE true).jump 3) ∧
    readsE (.cmp 0 1) = false := ⟨by rfl, by decide⟩

/-- For RunningIsClearedByHltAndDecodeErrorOnly, and HltHaltsTheMachineForGood at a step. -/
theorem witness_running_cleared : stepWith opcodeMap (at' 0x00 [0x01]) = .next (at' 0x00 [0x01]).halt ∧
    decodeWith opcodeMap (at' 0x00 [0x01]).fetch = .ok .hlt := ⟨by rfl, by decide⟩

/-- For FaultIsWrittenByDecodeErrorOnly (both clauses). -/
theorem witness_fault : (IllegalOpcode opcodeMap illegalState ∧ ∃ t, stepWith opcodeMap illegalState = .next t) ∧
    ¬ IllegalOpcode opcodeMap State.reset ∧ ∃ t, stepWith opcodeMap State.reset = .next t :=
  ⟨⟨illegalState_illegal, _, illegalState_step⟩, nop_not_illegal, _, reset_steps⟩

/-- For OutputGrowsByPrnOnlyAndIsNeverRead. -/
theorem witness_out : exec (.prn 7) State.reset = .next ((State.reset.emit 0xF4).jump 2) ∧
    ∃ t, stepWith opcodeMap (at' 0x00 [0x47, 0x07]) = .next t := ⟨by rfl, _, rfl⟩

/-- For OnlyPushAndCallWriteMemory (both clauses). -/
theorem witness_stores : storesByte (.push 0) = true ∧ storesByte (.pop 0) = false ∧
    (∃ t, exec (.push 0) State.reset = .next t) ∧ ∃ t, exec (.pop 0) State.reset = .next t :=
  ⟨rfl, rfl, ⟨_, rfl⟩, _, rfl⟩

/-- For OnlyPopAndRetReadMemory, an instruction that loads, another memory that agrees at SP. -/
theorem witness_loads : (∃ t, exec (.pop 0) State.reset = .next t) ∧ loadsByte (.pop 0) = true ∧
    Memory.read [(0, 0x77)] State.reset.sp = State.reset.readMem State.reset.sp := ⟨⟨_, rfl⟩, rfl, by decide⟩

/-- For OnlyPopAndRetReadMemory, an instruction that does not load, a memory that differs at SP. -/
theorem witness_reads_nothing : (∃ t, exec (.ldi 0 1) State.reset = .next t) ∧
    (loadsByte (.ldi 0 1) = true → Memory.read [(0xF4, 0x77)] State.reset.sp = State.reset.readMem State.reset.sp) :=
  ⟨⟨_, rfl⟩, by decide⟩

/-- For RegistersChangeOnlyWhereNamed. -/
theorem witness_registers : (∃ t, exec (.pop 1) State.reset = .next t) ∧ (2 : Reg) ∉ writtenRegs (.pop 1) :=
  ⟨⟨_, rfl⟩, by decide⟩

/-- For NextFetchSeesTheStore, with a store to the very next instruction. -/
theorem witness_next_fetch : ∃ t, exec (.push 7) (State.reset.jump 0xF1) = .next t ∧ t.pc = 0xF3 ∧ t.fetch.op = 0xF3 :=
  ⟨_, rfl, by decide, by decide⟩

/-- For EveryStepKeepsTheInvariant. -/
theorem witness_invariant : State.reset.inv ∧ ∃ t, step State.reset = .next t := ⟨by decide, _, reset_steps⟩

/-- The boundary of boot: 257 bytes are refused, 256 accepted. -/
theorem witness_boot_refused : 256 < (List.replicate 257 (0x01 : Byte)).length ∧
    ∃ s, State.boot (List.replicate 256 (0x01 : Byte)) = some s := ⟨by rw [List.length_replicate]; decide, _, if_pos (by rw [List.length_replicate])⟩

/-- For BootPlacesTheImageFromZero. -/
theorem witness_boot : ∃ s, State.boot [0x82, 0x00, 0x08, 0x01] = some s ∧ s.readMem 0 = 0x82 ∧ s.readMem 3 = 0x01 ∧
    s.readMem 4 = 0x00 ∧ s.readMem 255 = 0x00 := ⟨_, rfl, by decide⟩

/-- For RunEndsByHltOrDecodeError, first outcome. -/
theorem witness_run_ends_hlt : (at' 0x00 [0x01]).inv ∧ stepWith opcodeMap (at' 0x00 [0x01]) = .next (at' 0x00 [0x01]).halt ∧
    (at' 0x00 [0x01]).halt.running = false := ⟨by decide, by rfl, by decide⟩

/-- For RunEndsByHltOrDecodeError, second outcome. -/
theorem witness_run_ends_fault : illegalState.inv ∧
    stepWith opcodeMap illegalState = .next (illegalState.raiseDecodeError 0xFE 0xFF) ∧
    (illegalState.raiseDecodeError 0xFE 0xFF).running = false := ⟨by decide, illegalState_step, rfl⟩

/-- For RunsKeepTheInvariantAndStopOnlyHalted, a run that goes on and a run that stops. -/
theorem witness_run : State.reset.inv ∧ State.reset.halt.inv ∧ Sys2Proof.core.run 1 State.reset = .next (State.reset.jump 1) ∧
    Sys2Proof.core.run 1 State.reset.halt = .fault Fault.halted := ⟨by decide, by decide, by rfl, by rfl⟩

/-- For RetReturnsAfterTheCall. -/
theorem witness_ret_after_call : ∃ t, exec (.call 1) State.reset = .next t ∧
    (t.jump 0x40).sp = t.sp ∧ (t.jump 0x40).readMem t.sp = t.readMem t.sp := ⟨_, rfl, rfl, rfl⟩

/-- For CompareThenBranchFollowsEquality (both clauses). -/
theorem witness_compare : State.reset.getReg (ridx 0) = State.reset.getReg (ridx 1) ∧
    State.reset.getReg (ridx 0) ≠ State.reset.getReg (ridx 7) := by decide

/-- For ImageTextLoadsBackAsTheImage, at the largest length. -/
theorem witness_image_text : (List.replicate 256 (0xFF : Byte)).length ≤ 256 := by
  rw [List.length_replicate]

/-- For TextLoadsExactlyWhenEveryLineIsAByte (a text of one byte, and the empty text). -/
theorem witness_text_loads : parseImage "1\n".toList = .ok [1] ∧ parseImage [] = .ok [] := by decide

end Sys2Proof.Tests
end

/-! # The state: what an instruction and a step can do to it (10_state.md)

Laws of `exec`, of `stepWith` and of runs, each said once; the statements about the state are then short uses of them. -/
section

namespace Sys2Proof.Machine

/-! ## What every instruction does to E, running, fault, out and memory -/

/-- The effect of an instruction on all state but the registers and the pc, the same shape for all 14. -/
structure ExecEffect (i : Instr) (s t : State) : Prop where
  /-- E is as R17 says. -/
  e : t.e = eAfter i s
  /-- `running` is cleared by HLT and kept by every other instruction (R19). -/
  running : t.running = (s.running && decide (i ≠ .hlt))
  /-- The latch is kept (R20). -/
  fault : t.fault = s.fault
  /-- The output gets the bytes emitted at its end (R21). -/
  out : t.out = s.out ++ emitted i s
  /-- Memory is kept, or one cell of it is written (20_memory.md R35). -/
  mem : t.mem = s.mem ∨ ∃ addr v, t.mem = s.mem.write addr v

theorem exec_effect {i : Instr} {s t : State} (h : exec i s = .next t) : ExecEffect i s t := by
  cases i with
  | push | call =>
    obtain rfl := Host.Outcome.next.inj h
    exact ⟨rfl, (Bool.and_true _).symm, rfl, (List.append_nil _).symm, .inr ⟨_, _, rfl⟩⟩
  | prn =>
    obtain rfl := Host.Outcome.next.inj h
    exact ⟨rfl, (Bool.and_true _).symm, rfl, rfl, .inl rfl⟩
  | hlt =>
    obtain rfl := Host.Outcome.next.inj h
    exact ⟨rfl, (Bool.and_false _).symm, rfl, (List.append_nil _).symm, .inl rfl⟩
  | ldi | add | mlt | pop | ret | cmp | jmp | jeq | jne | nop =>
    obtain rfl := Host.Outcome.next.inj h
    exact ⟨rfl, (Bool.and_true _).symm, rfl, (List.append_nil _).symm, .inl rfl⟩

/-- Every instruction completes in every state. -/
theorem exec_total (i : Instr) (s : State) : ∃ t, exec i s = .next t := by
  cases i <;> exact ⟨_, rfl⟩

/-- No instruction reads the latch or the output, and none but JEQ and JNE reads E: with other values of these three an
instruction answers the same state, up to what it makes of the three themselves. -/
theorem exec_of_other_control {i : Instr} {s t : State} (h : exec i s = .next t) (e : Bool)
    (he : readsE i = true → e = s.e) (f : Option DecodeError) (o : List Byte) :
    exec i { s with e := e, fault := f, out := o } =
      .next { t with e := eAfter i { s with e := e }, fault := f, out := o ++ emitted i s } := by
  cases i with
  | jeq | jne =>
    obtain rfl := he rfl
    obtain rfl := Host.Outcome.next.inj h
    simp only [emitted, List.append_nil]
    rfl
  | prn =>
    obtain rfl := Host.Outcome.next.inj h
    rfl
  | ldi | add | mlt | push | pop | call | ret | cmp | jmp | hlt | nop =>
    obtain rfl := Host.Outcome.next.inj h
    simp only [emitted, List.append_nil]
    rfl

/-! ## Register operand bytes (10_state.md R14) -/

theorem ridx_val (b : RegOperand) : (ridx b).val = b.toNat % 8 := rfl

theorem clean_toNat (b : RegOperand) : (RegOperand.clean b).toNat = b.toNat % 8 :=
  (BitVec.toNat_and b 7).trans (Nat.and_two_pow_sub_one_eq_mod b.toNat 3)

@[simp] theorem ridx_clean (b : RegOperand) : ridx (RegOperand.clean b) = ridx b :=
  Fin.ext (by rw [ridx_val, ridx_val, clean_toNat, Nat.mod_mod])

@[simp] theorem wellFormed_clean (b : RegOperand) : RegOperand.wellFormed (RegOperand.clean b) = true :=
  decide_eq_true (by rw [clean_toNat]; exact Nat.mod_lt _ (by decide))

theorem clean_wellFormed (i : Instr) : i.clean.wellFormed = true := by
  cases i <;> simp [Instr.clean, Instr.wellFormed]

/-- An instruction sees a register operand byte only through the register it selects. -/
theorem exec_clean (i : Instr) (s : State) : exec i.clean s = exec i s := by
  cases i with
  | ldi => simp only [Instr.clean, execLdi_next, ridx_clean]
  | prn => simp only [Instr.clean, execPrn_next, ridx_clean]
  | add => simp only [Instr.clean, execAdd_next, ridx_clean]
  | mlt => simp only [Instr.clean, execMlt_next, ridx_clean]
  | push => simp only [Instr.clean, execPush_next, ridx_clean]
  | pop => simp only [Instr.clean, execPop_next, ridx_clean]
  | call => simp only [Instr.clean, execCall_next, ridx_clean]
  | cmp => simp only [Instr.clean, execCmp_next, ridx_clean]
  | jmp => simp only [Instr.clean, execJmp_next, ridx_clean]
  | jeq => simp only [Instr.clean, execJeq_next, ridx_clean]
  | jne => simp only [Instr.clean, execJne_next, ridx_clean]
  | ret | hlt | nop => rfl

/-- Every register is named by its own number as an operand byte (10_state.md R11). -/
theorem ridx_ofNat : ∀ r : Reg, RegOperand.wellFormed (BitVec.ofNat 8 r.val) = true ∧ ridx (BitVec.ofNat 8 r.val) = r := by
  decide

/-! ## The step -/

theorem not_illegalOpcode_of_decode {m : OpcodeMap} {s : State} {i : Instr} (h : decodeWith m s.fetch = .ok i) :
    ¬ IllegalOpcode m s := by
  intro hill
  rcases decodeWith_cases m s.fetch with ⟨c, hc, -⟩ | ⟨-, hd⟩
  · exact hill c hc
  · rw [hd] at h
    cases h

theorem stepWith_of_decode {m : OpcodeMap} {s : State} {i : Instr} (hr : s.running = true)
    (hd : decodeWith m s.fetch = .ok i) : stepWith m s = exec i s := by
  rw [stepWith, if_pos hr, hd, execDecoded]

theorem stepWith_of_illegalOpcode {m : OpcodeMap} {s : State} (hr : s.running = true) (hill : IllegalOpcode m s) :
    stepWith m s = .next (s.raiseDecodeError s.pc (s.readMem s.pc)) := by
  rcases decodeWith_cases m s.fetch with ⟨c, hc, -⟩ | ⟨-, hd⟩
  · exact absurd hc (hill c)
  · rw [stepWith, if_pos hr, hd, execDecoded, State.fetch_op]

/-- `stepWith_cases`, with the two outcomes told apart by `IllegalOpcode`. -/
theorem stepWith_next_cases {m : OpcodeMap} {s t : State} (h : stepWith m s = .next t) :
    s.running = true ∧
    ((¬ IllegalOpcode m s ∧ ∃ i, decodeWith m s.fetch = .ok i ∧ exec i s = .next t) ∨
     (IllegalOpcode m s ∧ t = s.raiseDecodeError s.pc (s.readMem s.pc))) := by
  obtain ⟨hr, ⟨i, hd, hx⟩ | hill⟩ := stepWith_cases h
  · exact ⟨hr, .inl ⟨not_illegalOpcode_of_decode hd, i, hd, hx⟩⟩
  · exact ⟨hr, .inr hill⟩

/-- A step at an illegal opcode is the DecodeError (60_exceptions.md R121). -/
theorem eq_raiseDecodeError_of_stepWith {m : OpcodeMap} {s t : State} (h : stepWith m s = .next t)
    (hill : IllegalOpcode m s) : t = s.raiseDecodeError s.pc (s.readMem s.pc) := by
  obtain ⟨-, ⟨hleg, -⟩ | ⟨-, ht⟩⟩ := stepWith_next_cases h
  · exact absurd hill hleg
  · exact ht

/-- A running machine takes a step, whatever byte stands at the pc. -/
theorem exists_stepWith_of_running {m : OpcodeMap} {s : State} (hr : s.running = true) : ∃ t, stepWith m s = .next t := by
  rcases decodeWith_cases m s.fetch with ⟨c, -, hd⟩ | ⟨hill, -⟩
  · rw [stepWith_of_decode hr hd]
    exact exec_total _ s
  · exact ⟨_, stepWith_of_illegalOpcode hr hill⟩

theorem exists_stepWith_iff_running {m : OpcodeMap} {s : State} : (∃ t, stepWith m s = .next t) ↔ s.running = true :=
  ⟨fun ⟨_, h⟩ => (stepWith_next_cases h).1, exists_stepWith_of_running⟩

/-- No step reads the latch or the output: with another latch and other output it answers the same state, up to these
two; it appends the same bytes, and it leaves the latch it would have left when it starts from that one. -/
theorem stepWith_of_other_control {m : OpcodeMap} {s t : State} (h : stepWith m s = .next t) (f : Option DecodeError)
    (o : List Byte) : ∃ f' added,
      stepWith m { s with fault := f, out := o } = .next { t with fault := f', out := o ++ added } ∧
      t.out = s.out ++ added ∧ (f = s.fault → f' = t.fault) := by
  obtain ⟨hr, ⟨-, i, hd, hx⟩ | ⟨hill, rfl⟩⟩ := stepWith_next_cases h
  · have heff := exec_effect hx
    refine ⟨f, emitted i s, ?_, heff.out, fun hf => hf.trans heff.fault.symm⟩
    have hstep : stepWith m { s with fault := f, out := o } = exec i { s with fault := f, out := o } :=
      stepWith_of_decode hr hd
    have hexec := exec_of_other_control hx s.e (fun _ => rfl) f o
    rw [hstep, heff.e]
    exact hexec
  · refine ⟨some { addr := s.pc, opcode := s.readMem s.pc }, [], ?_, (List.append_nil _).symm, fun _ => rfl⟩
    rw [List.append_nil]
    exact stepWith_of_illegalOpcode hr hill

theorem stepWith_out_prefix {m : OpcodeMap} {s t : State} (h : stepWith m s = .next t) : s.out <+: t.out := by
  obtain ⟨_, added, -, hout, -⟩ := stepWith_of_other_control h s.fault s.out
  exact ⟨added, hout.symm⟩

/-! ## The invariant (10_state.md R26) -/

theorem ExecEffect.mem_wf {i : Instr} {s t : State} (heff : ExecEffect i s t) (h : s.mem.wf) : t.mem.wf := by
  rcases heff.mem with hmem | ⟨addr, v, hmem⟩
  · rwa [hmem]
  · rw [hmem]
    exact Memory.write_wf h addr v

/-- In a running machine the invariant says that no fault is recorded, and no instruction records one. -/
theorem stepWith_inv {m : OpcodeMap} {s t : State} (hinv : s.inv) (h : stepWith m s = .next t) : t.inv := by
  obtain ⟨hwf, hlatch⟩ := hinv
  obtain ⟨hr, ⟨-, i, -, hx⟩ | ⟨-, rfl⟩⟩ := stepWith_next_cases h
  · have heff := exec_effect hx
    refine ⟨heff.mem_wf hwf, fun hfault => ?_⟩
    rw [heff.fault] at hfault
    rw [hlatch hfault] at hr
    cases hr
  · exact ⟨hwf, fun _ => rfl⟩

/-! ## Runs -/

/-- What every step keeps holds where a run stands. -/
theorem core_run_keeps {P : State → Prop} (hstep : ∀ s t, P s → step s = .next t → P t) (k : Nat) (s t : State)
    (hs : P s) (h : Sys2Proof.core.run k s = .next t) : P t := by
  induction k generalizing s with
  | zero => exact Host.Outcome.next.inj h ▸ hs
  | succ k ih =>
    cases hr : s.running with
    | true =>
      obtain ⟨u, hu⟩ : ∃ u, step s = .next u := exists_stepWith_of_running hr
      rw [core_run_succ_of_next hu] at h
      exact ih u (hstep s u hs hu) h
    | false =>
      rw [core_run_succ_of_halted hr] at h
      cases h

/-- A run of `k` steps stands at a state, or has stopped at a halted state it reached in fewer steps. -/
theorem core_run_cases (k : Nat) (s : State) :
    (∃ t, Sys2Proof.core.run k s = .next t) ∨
    (Sys2Proof.core.run k s = .fault Fault.halted ∧
      ∃ (j : Nat) (t : State), j < k ∧ Sys2Proof.core.run j s = .next t ∧ t.halted) := by
  induction k generalizing s with
  | zero => exact .inl ⟨s, rfl⟩
  | succ k ih =>
    cases hr : s.running with
    | true =>
      obtain ⟨u, hu⟩ : ∃ u, step s = .next u := exists_stepWith_of_running hr
      rw [core_run_succ_of_next hu]
      refine (ih u).imp_right fun ⟨hstop, j, t, hj, ht, hhalted⟩ => ⟨hstop, j + 1, t, Nat.succ_lt_succ hj, ?_, hhalted⟩
      rw [core_run_succ_of_next hu, ht]
    | false => exact .inr ⟨core_run_succ_of_halted hr, 0, s, Nat.succ_pos k, rfl, hr⟩

/-! ## The statements -/

/-- Settles O36: an instruction keeps the latch and writes at most one cell, and a decode error halts. -/
theorem everyStepKeepsTheInvariant : Obligations.EveryStepKeepsTheInvariant :=
  ⟨fun _ _ _ => stepWith_inv, fun _ _ => stepWith_inv⟩

/-- Settles O41, by two inductions over the number of steps: one for what every step keeps, one for how a run can end. -/
theorem runsKeepTheInvariantAndStopOnlyHalted : Obligations.RunsKeepTheInvariantAndStopOnlyHalted := by
  intro k s hinv
  refine ⟨fun t ht => ?_, ?_⟩
  · exact core_run_keeps (P := fun u => u.inv ∧ s.out <+: u.out)
      (fun _ _ ⟨hu, hout⟩ h => ⟨stepWith_inv hu h, hout.trans (stepWith_out_prefix h)⟩)
      k s t ⟨hinv, List.prefix_rfl⟩ ht
  · rcases core_run_cases k s with ⟨t, ht⟩ | ⟨hstop, hreached⟩
    · rw [ht]
      exact ⟨fun _ => nofun, nofun⟩
    · rw [hstop]
      exact ⟨fun _ => nofun, fun _ _ => hreached⟩

/-- Settles O5: both the clean byte and the byte itself select the register of the byte modulo 8. -/
theorem upperOperandBitsHaveNoEffect : Obligations.UpperOperandBitsHaveNoEffect :=
  ⟨ridx_val, fun i s => ⟨exec_clean i s, clean_wellFormed i⟩⟩

/-- Settles O26: the effect of an instruction on E, and what it does when run with another E. -/
theorem equalIsWrittenByCmpAndReadByConditionalJumps : Obligations.EqualIsWrittenByCmpAndReadByConditionalJumps := by
  refine ⟨fun _ _ _ h => (exec_effect h).e, fun m s t h hill => ?_, fun i s t v hreads h => ?_⟩
  · rw [eq_raiseDecodeError_of_stepWith h hill, State.raiseDecodeError_e]
  · have heff := exec_effect h
    have hreads' : readsE i = true → v = s.e := fun hr => absurd hr (by simp [hreads])
    refine ⟨_, exec_of_other_control h v hreads' s.fault s.out, rfl, ?_⟩
    rw [← heff.fault, ← heff.out]
    rfl

/-- Settles O27: among the instructions only HLT clears `running`, and a decode error always does. -/
theorem runningIsClearedByHltAndDecodeErrorOnly : Obligations.RunningIsClearedByHltAndDecodeErrorOnly := by
  refine ⟨rfl, fun m s => ⟨exists_stepWith_iff_running, fun t h => ?_⟩⟩
  obtain ⟨hr, ⟨hleg, i, hd, hx⟩ | ⟨hill, rfl⟩⟩ := stepWith_next_cases h
  · have hrun : t.running = decide (i ≠ .hlt) := by rw [(exec_effect hx).running, hr, Bool.true_and]
    simp [hrun, hd, hleg]
  · exact iff_of_true rfl (.inr hill)

/-- Settles O28: a step with another latch is the same step, up to the latch. -/
theorem faultIsWrittenByDecodeErrorOnly : Obligations.FaultIsWrittenByDecodeErrorOnly := by
  refine ⟨fun _ _ _ h => (exec_effect h).fault, fun m s t h => ⟨fun hill => ?_, fun hleg => ?_⟩, fun m s t f h => ?_⟩
  · rw [eq_raiseDecodeError_of_stepWith h hill, State.raiseDecodeError_fault]
  · obtain ⟨-, ⟨-, i, -, hx⟩ | ⟨hill, -⟩⟩ := stepWith_next_cases h
    · exact (exec_effect hx).fault
    · exact absurd hill hleg
  · obtain ⟨f', added, hu, hout, -⟩ := stepWith_of_other_control h f s.out
    refine ⟨_, hu, ?_⟩
    rw [← hout]

/-- Settles O29: a step with another output appends the same bytes and is otherwise the same. -/
theorem outputGrowsByPrnOnlyAndIsNeverRead : Obligations.OutputGrowsByPrnOnlyAndIsNeverRead := by
  refine ⟨fun _ _ _ h => (exec_effect h).out, fun m s t h => ⟨stepWith_out_prefix h, fun hill => ?_⟩, fun m s t o h => ?_⟩
  · rw [eq_raiseDecodeError_of_stepWith h hill, State.raiseDecodeError_out]
  · obtain ⟨f', added, hu, hout, hlatch⟩ := stepWith_of_other_control h s.fault o
    refine ⟨_, added, hu, hout, rfl, ?_⟩
    rw [hlatch rfl]

/-- Settles O35: a register's own number is an operand byte that names it. -/
theorem registerWriteChangesOneRegister : Obligations.RegisterWriteChangesOneRegister := by
  refine ⟨fun r => ⟨BitVec.ofNat 8 r.val, ridx_ofNat r⟩, fun s r v => ⟨by simp, fun q hq => ?_, rfl⟩⟩
  rw [State.setReg_getReg, if_neg (List.ne_of_not_mem_cons hq)]

/-- Settles O37: no memory cell is listed, and no fault is recorded. -/
theorem resetMeetsTheInvariant : Obligations.ResetMeetsTheInvariant :=
  ⟨reset_mem_wf, fun hfault => absurd rfl hfault⟩

/-- Settles O38, field by field. -/
theorem resetLeavesTheTable : Obligations.ResetLeavesTheTable :=
  ⟨fun _ => rfl, by decide, rfl, rfl, rfl, rfl, rfl, rfl⟩

end Sys2Proof.Machine

end

/-! # Memory: who writes it, who reads it, and what the next fetch sees (20_memory.md)

One case split over the instructions says what each makes of any memory it is run with. From it come both the cells an
instruction leaves as they are and the cells it does not look at. -/
section

namespace Sys2Proof.Machine

/-! ## What an instruction makes of a memory -/

/-- A memory with the byte that an instruction run in `s` stores, at the decremented SP, if it stores one (R35). -/
def storeIn (i : Instr) (s : State) (mem : Memory) : Memory := (storedByte i s).elim mem (mem.write s.decSp.sp)

theorem storeIn_push (a : RegOperand) (s : State) (mem : Memory) :
    storeIn (.push a) s mem = mem.write (s.getReg 7 - 1) (if ridx a = 7 then s.getReg 7 - 1 else s.getReg (ridx a)) := by
  simp [storeIn, storedByte]

theorem storeIn_call (a : RegOperand) (s : State) (mem : Memory) :
    storeIn (.call a) s mem = mem.write (s.getReg 7 - 1) (s.pc + 2) := by
  simp [storeIn, storedByte, BitVec.ofNat_add]

/-- The cells of `memAfter` are those of memory with the byte stored in it. -/
theorem storeIn_read (i : Instr) (s : State) (addr : Byte) : (storeIn i s s.mem).read addr = memAfter i s addr := by
  unfold storeIn memAfter
  cases storedByte i s with
  | none => exact (ite_self _).symm
  | some v => exact Memory.read_write s.mem s.decSp.sp v addr

/-- No instruction reads memory, but for POP and RET the cell at SP: with another memory that agrees there, an instruction
answers the same state, and it stores the same byte in that memory. -/
theorem exec_of_other_mem {i : Instr} {s t : State} (h : exec i s = .next t) (mem : Memory)
    (hsp : loadsByte i = true → mem.read s.sp = s.readMem s.sp) :
    exec i { s with mem := mem } = .next { t with mem := storeIn i s mem } := by
  cases i with
  | push | call =>
    simp only [execPush_next, execCall_next, storeIn_push, storeIn_call] at h ⊢
    obtain rfl := Host.Outcome.next.inj h
    rfl
  | pop | ret =>
    have htop : State.readMem { s with mem := mem } (s.getReg 7) = s.readMem (s.getReg 7) := hsp rfl
    simp only [execPop_next, execRet_next] at h ⊢
    obtain rfl := Host.Outcome.next.inj h
    rw [← htop]
    rfl
  | ldi | prn | add | mlt | cmp | jmp | jeq | jne | hlt | nop =>
    obtain rfl := Host.Outcome.next.inj h
    rfl

/-- What every cell holds after an instruction: the case of `exec_of_other_mem` where the other memory is the state's own. -/
theorem exec_readMem {i : Instr} {s t : State} (h : exec i s = .next t) (addr : Byte) :
    t.readMem addr = memAfter i s addr := by
  have hmem : t.mem = storeIn i s s.mem :=
    congrArg State.mem (Host.Outcome.next.inj (h.symm.trans (exec_of_other_mem h s.mem fun _ => rfl)))
  rw [State.readMem, hmem, storeIn_read]

theorem storedByte_of_not_storesByte {i : Instr} (h : storesByte i = false) (s : State) : storedByte i s = none := by
  cases i with
  | push | call => cases h
  | ldi | prn | add | mlt | pop | ret | cmp | jmp | jeq | jne | hlt | nop => rfl

theorem memAfter_of_ne (i : Instr) (s : State) {addr : Byte} (h : addr ≠ s.decSp.sp) :
    memAfter i s addr = s.readMem addr := if_neg h

theorem memAfter_of_not_storesByte {i : Instr} (h : storesByte i = false) (s : State) (addr : Byte) :
    memAfter i s addr = s.readMem addr := by
  rw [memAfter, storedByte_of_not_storesByte h, Option.getD_none, ite_self]

/-! ## The instruction whose bytes stand in memory at the pc (R33) -/

/-- The decoder puts the operand bytes back where the encoder took them from. -/
theorem withOperands_of_operands_prefix {i : Instr} {a b : Byte} (h : i.operands <+: [a, b]) :
    i.opcode.withOperands a b = i := by
  cases i with
  | ldi | add | mlt | cmp =>
    obtain ⟨rfl, rfl⟩ : _ = a ∧ _ = b := by simpa [Instr.operands] using h
    rfl
  | prn | push | pop | call | jmp | jeq | jne =>
    obtain rfl : _ = a := by simpa [Instr.operands] using h
    rfl
  | ret | hlt | nop => rfl

/-- Bytes that begin with the encoding of an instruction decode as it. -/
theorem decodeWith_of_encodeWith_prefix {m : OpcodeMap} (hm : m.Injective) {f : Fetched} {i : Instr}
    (h : encodeWith m i <+: f.toList) : decodeWith m f = .ok i := by
  obtain ⟨hop, hoperands⟩ : m i.opcode = f.op ∧ i.operands <+: [f.a, f.b] := List.cons_prefix_cons.1 h
  rw [decodeWith, ← hop, OpcodeMap.lookup_apply hm]
  exact congrArg Except.ok (withOperands_of_operands_prefix hoperands)

theorem fetch_getElem? (s : State) {k : Nat} (hk : k < 3) :
    s.fetch.toList[k]? = some (s.readMem (s.pc + BitVec.ofNat 8 k)) := by
  match k, hk with
  | 0, _ => simp [Fetched.toList]
  | 1, _ => rfl
  | 2, _ => rfl

theorem encodeWith_length_le (m : OpcodeMap) (i : Instr) : (encodeWith m i).length ≤ 3 := by
  cases i <;> simp [encodeWith, Instr.operands]

/-- A fetch begins with any encoding whose bytes stand in memory from the pc on. -/
theorem encodeWith_prefix_fetch {m : OpcodeMap} {s : State} {i : Instr}
    (h : ∀ k : Nat, k < (encodeWith m i).length →
      some (s.readMem (s.pc + BitVec.ofNat 8 k)) = (encodeWith m i)[k]?) :
    encodeWith m i <+: s.fetch.toList := by
  refine List.prefix_iff_getElem?.2 fun k hk => ?_
  rw [fetch_getElem? s (Nat.lt_of_lt_of_le hk (encodeWith_length_le m i)), h k hk, List.getElem?_eq_getElem hk]

/-! ## The statements -/

/-- Settles O8: the fetch begins with the encoding, so the decoder answers the instruction. -/
theorem stepRunsTheInstructionStoredAtPc : Obligations.StepRunsTheInstructionStoredAtPc :=
  fun _ _ _ hm hr hbytes =>
    stepWith_of_decode hr (decodeWith_of_encodeWith_prefix hm (encodeWith_prefix_fetch hbytes))

/-- Settles O30: every cell after an instruction is known, and a decode error has no part in memory. -/
theorem onlyPushAndCallWriteMemory : Obligations.OnlyPushAndCallWriteMemory := by
  refine ⟨fun i s t h => ⟨fun _ addr haddr => ?_, fun hstores addr => ?_⟩, fun m s t h hill addr => ?_⟩
  · rw [exec_readMem h, memAfter_of_ne i s haddr]
  · rw [exec_readMem h, memAfter_of_not_storesByte hstores]
  · rw [eq_raiseDecodeError_of_stepWith h hill, State.raiseDecodeError_readMem]

/-- Settles O31: with the other memory an instruction answers the same state up to memory. -/
theorem onlyPopAndRetReadMemory : Obligations.OnlyPopAndRetReadMemory :=
  fun _ _ _ mem h hsp => ⟨_, exec_of_other_mem h mem hsp, rfl⟩

/-- Settles O33: a fetch is three reads, of cells that are known after an instruction. -/
theorem nextFetchSeesTheStore : Obligations.NextFetchSeesTheStore := by
  intro i s t h
  simp only [State.fetch, exec_readMem h]

/-- Settles O34, by the read-after-write law. -/
theorem memoryWriteChangesOneCell : Obligations.MemoryWriteChangesOneCell := by
  refine fun s addr v => ⟨?_, fun c hc => ?_, rfl⟩
  · rw [State.writeMem_readMem, if_pos rfl]
  · rw [State.writeMem_readMem, if_neg hc]

end Sys2Proof.Machine

end

/-! # The encoding: decoder against encoder, and the program image as text (30_encoding.md)

The decoder's answer is characterised once, by the lookup of the opcode byte and the operand bytes of the instruction it
answers; the statements on decoding follow from that. A text's image is characterised line by line; that the image's own
text loads back is then the case of eight-digit lines. -/
section

namespace Sys2Proof

/-! ## What the decoder answers, in terms of the instruction answered (R51, R57, R58) -/

/-- A mnemonic takes its operands from the front of the bytes after the opcode. -/
theorem Opcode.operands_withOperands (c : Opcode) (a b : Byte) :
    (c.withOperands a b).operands = [a, b].take c.operandCount := by
  cases c <;> rfl

theorem encodeWith_length (m : OpcodeMap) (i : Instr) : (encodeWith m i).length = i.length := by
  cases i <;> rfl

/-- The decoder answers an instruction exactly when the opcode byte is looked up as its mnemonic and its operand bytes
follow. No property of the map is needed. -/
theorem decodeWith_eq_ok_iff {m : OpcodeMap} {f : Fetched} {i : Instr} :
    decodeWith m f = .ok i ↔ m.lookup f.op = some i.opcode ∧ i.operands <+: [f.a, f.b] := by
  constructor
  · intro h
    unfold decodeWith at h
    split at h
    · next c hc =>
      obtain rfl := Except.ok.inj h
      rw [Opcode.withOperands_opcode, Opcode.operands_withOperands]
      exact ⟨hc, List.take_prefix _ _⟩
    · cases h
  · rintro ⟨hop, hoperands⟩
    rw [decodeWith, hop]
    exact congrArg Except.ok (Machine.withOperands_of_operands_prefix hoperands)

theorem decodeWith_eq_error_iff {m : OpcodeMap} {f : Fetched} :
    decodeWith m f = .error (.unknownOpcode f.op) ↔ ∀ c : Opcode, m c ≠ f.op := by
  rcases decodeWith_cases m f with ⟨c, hc, hd⟩ | ⟨hn, hd⟩
  · exact iff_of_false (by rw [hd]; exact nofun) fun hn => hn c hc
  · exact iff_of_true hd hn

theorem exists_decodeWith_ok_iff {m : OpcodeMap} {f : Fetched} :
    (∃ i, decodeWith m f = .ok i) ↔ ∃ c : Opcode, m c = f.op := by
  rcases decodeWith_cases m f with ⟨c, hc, hd⟩ | ⟨hn, hd⟩
  · exact iff_of_true ⟨_, hd⟩ ⟨c, hc⟩
  · exact iff_of_false (by rw [hd]; exact nofun) fun ⟨c, hc⟩ => hn c hc

/-- The encoding of an instruction stands at the front of a fetch that decodes as it. -/
theorem encodeWith_prefix_of_decodeWith {m : OpcodeMap} {f : Fetched} {i : Instr} (h : decodeWith m f = .ok i) :
    encodeWith m i <+: f.toList := by
  obtain ⟨hop, hoperands⟩ := decodeWith_eq_ok_iff.1 h
  exact List.cons_prefix_cons.2 ⟨OpcodeMap.lookup_some hop, hoperands⟩

/-- A map under which every mnemonic's byte is looked up as that mnemonic is injective (`OpcodeMap.lookup_apply` is the
converse). -/
theorem OpcodeMap.injective_of_lookup_apply {m : OpcodeMap} (h : ∀ c, m.lookup (m c) = some c) : m.Injective :=
  fun c d hcd => Option.some.inj (by rw [← h c, hcd, h d])

theorem opcodeMap_lookup_apply (c : Opcode) : opcodeMap.lookup (opcodeMap c) = some c := by
  cases c <;> rfl

/-- Under an injective map, 14 of the 256 byte values are mapped, so 242 are not. -/
theorem unmapped_length {m : OpcodeMap} (hm : m.Injective) :
    ((List.range 256).filter (fun n => m.lookup (BitVec.ofNat 8 n) = none)).length = 242 := by
  have hmapped : ((List.range 256).filter (fun n => !decide (m.lookup (BitVec.ofNat 8 n) = none))).Perm
      (Opcode.all.map fun c => (m c).toNat) := by
    have hall : Opcode.all.Nodup := by decide
    refine (List.perm_ext_iff_of_nodup (List.nodup_range.filter _)
      (hall.map fun c d hcd => hm c d (BitVec.eq_of_toNat_eq hcd))).2 fun n => ?_
    simp only [List.mem_filter, List.mem_range, List.mem_map, Opcode.mem_all, true_and, Bool.not_eq_true',
      decide_eq_false_iff_not, OpcodeMap.lookup_none, not_forall, not_not]
    constructor
    · rintro ⟨hn, c, hc⟩
      exact ⟨c, by rw [hc, BitVec.toNat_ofNat, Nat.mod_eq_of_lt hn]⟩
    · rintro ⟨c, rfl⟩
      exact ⟨(m c).isLt, c, by rw [BitVec.ofNat_toNat, BitVec.setWidth_eq]⟩
  have hsplit := List.length_eq_length_filter_add (l := List.range 256)
    (fun n => decide (m.lookup (BitVec.ofNat 8 n) = none))
  rw [hmapped.length_eq, List.length_map, List.length_range] at hsplit
  exact (Nat.add_right_cancel (m := 14) hsplit).symm

end Sys2Proof

namespace Sys2Proof.Machine

/-! ## The statements on decoding -/

/-- Settles O1: the decoder keeps every operand byte, and injectivity gives the mnemonic back from its byte. -/
theorem decodeAnswersExactlyTheEncodedInstruction : Obligations.DecodeAnswersExactlyTheEncodedInstruction :=
  fun _ hm _ _ => ⟨encodeWith_prefix_of_decodeWith, decodeWith_of_encodeWith_prefix hm⟩

/-- Settles O3: the lookup fails exactly at the unmapped bytes, and any injective map leaves 242 of these. -/
theorem illegalOpcodesAreTheUnmappedBytes : Obligations.IllegalOpcodesAreTheUnmappedBytes :=
  ⟨fun _ _ => decodeWith_eq_error_iff, fun _ _ => exists_decodeWith_ok_iff,
    OpcodeMap.injective_of_lookup_apply opcodeMap_lookup_apply,
    unmapped_length (OpcodeMap.injective_of_lookup_apply opcodeMap_lookup_apply)⟩

/-- Settles O4: the encoding of `i` is what `f` begins with for the length of `i`, so `g` begins with it too. -/
theorem bytesBeyondTheInstructionAreIgnored : Obligations.BytesBeyondTheInstructionAreIgnored := by
  intro m f g i hf hfg
  have hencoded : encodeWith m i <+: g.toList := by
    rw [List.prefix_iff_eq_take, encodeWith_length, hfg, ← encodeWith_length m, ← List.prefix_iff_eq_take]
    exact encodeWith_prefix_of_decodeWith hf
  obtain ⟨hgop, hoperands⟩ : m i.opcode = g.op ∧ i.operands <+: [g.a, g.b] := List.cons_prefix_cons.1 hencoded
  obtain ⟨hlookup, -⟩ := decodeWith_eq_ok_iff.1 hf
  rw [← OpcodeMap.lookup_some hlookup, hgop] at hlookup
  exact decodeWith_eq_ok_iff.2 ⟨hlookup, hoperands⟩

/-- Settles O2, by running the decoder on the six words. -/
theorem specWordsDecodeAsWritten : Obligations.SpecWordsDecodeAsWritten :=
  ⟨rfl, rfl, rfl, rfl, rfl, rfl⟩

/-! ## A text loads line by line (R61, R128) -/

theorem parseLine_of_blank {line : List Char} (h : lineText line = []) : parseLine line = .ok none := if_pos h

/-- A line that is not blank gives a byte exactly when its text is a binary literal of that byte's value. -/
theorem parseLine_eq_ok_iff {line : List Char} (h : lineText line ≠ []) {v : Option Byte} :
    parseLine line = .ok v ↔ ∃ b : Byte, v = some b ∧ binaryValue 0 (lineText line) = some b.toNat := by
  rw [parseLine, if_neg h]
  cases binaryValue 0 (lineText line) with
  | none => simp
  | some n =>
    by_cases hn : n < 256
    · simp only [if_pos hn, Except.ok.injEq, Option.some.injEq]
      constructor
      · rintro rfl
        exact ⟨_, rfl, by rw [BitVec.toNat_ofNat, Nat.mod_eq_of_lt hn]⟩
      · rintro ⟨b, rfl, rfl⟩
        rw [BitVec.ofNat_toNat, BitVec.setWidth_eq]
    · simp only [if_neg hn, Option.some.injEq]
      refine iff_of_false nofun ?_
      rintro ⟨b, -, rfl⟩
      exact hn b.isLt

theorem parseLines_cons_eq_ok_iff {l : List Char} {ls : List (List Char)} {image : List Byte} :
    parseLines (l :: ls) = .ok image ↔
      ∃ v bytes, parseLine l = .ok v ∧ parseLines ls = .ok bytes ∧ v.toList ++ bytes = image := by
  rw [parseLines]
  cases parseLine l <;> cases parseLines ls <;> simp

theorem parseImage_eq_ok_iff {text : List Char} {image : List Byte} :
    parseImage text = .ok image ↔ image.length ≤ 256 ∧ parseLines (textLines text) = .ok image := by
  rw [parseImage]
  cases parseLines (textLines text) with
  | error => simp
  | ok bytes =>
    by_cases hlen : bytes.length ≤ 256
    · simp only [memSize_eq, if_pos hlen, Except.ok.injEq]
      exact ⟨fun h => ⟨h ▸ hlen, h⟩, And.right⟩
    · simp only [memSize_eq, if_neg hlen, Except.ok.injEq]
      exact iff_of_false nofun fun ⟨h, he⟩ => hlen (he ▸ h)

/-- The texts of the lines that are not blank. -/
def literals (lines : List (List Char)) : List (List Char) := (lines.map lineText).filter (fun l => l ≠ [])

theorem literals_cons_of_blank {l : List Char} (h : lineText l = []) (ls : List (List Char)) :
    literals (l :: ls) = literals ls := by
  simp [literals, h]

theorem literals_cons_of_not_blank {l : List Char} (h : lineText l ≠ []) (ls : List (List Char)) :
    literals (l :: ls) = lineText l :: literals ls := by
  simp [literals, h]

/-- Lines are parsed as an image exactly when its bytes are the values of the literals, in order. -/
theorem parseLines_eq_ok_iff {lines : List (List Char)} {image : List Byte} :
    parseLines lines = .ok image ↔ (literals lines).map (binaryValue 0) = image.map (fun v => some v.toNat) := by
  induction lines generalizing image with
  | nil => cases image <;> simp [parseLines, literals]
  | cons l ls ih =>
    rw [parseLines_cons_eq_ok_iff]
    by_cases hl : lineText l = []
    · simp [literals_cons_of_blank hl, parseLine_of_blank hl, ih]
    · simp only [literals_cons_of_not_blank hl, parseLine_eq_ok_iff hl, ih]
      cases image with
      | nil => simp
      | cons b bytes => simp

/-! ## The text of an image (R61, D12) -/

/-- The digit `byteDigits` writes for a bit is read as that bit. -/
theorem binaryValue_digit_cons (acc : Nat) (bit : Bool) (rest : List Char) :
    binaryValue acc ((if bit then '1' else '0') :: rest) = binaryValue (2 * acc + bit.toNat) rest := by
  cases bit <;> rfl

/-- The digits of the low `k` bits, most significant first, are read as the number of these bits. -/
theorem binaryValue_low_bits (v : Byte) (k acc : Nat) :
    binaryValue acc ((List.range k).reverse.map (fun j => if v.getLsbD j then '1' else '0')) =
      some (2 ^ k * acc + v.toNat % 2 ^ k) := by
  induction k generalizing acc with
  | zero => simp [binaryValue, Nat.mod_one]
  | succ k ih =>
    rw [List.range_succ, List.reverse_append, List.reverse_singleton, List.singleton_append, List.map_cons,
      binaryValue_digit_cons, ih, BitVec.getLsbD, Nat.toNat_testBit, Nat.mod_pow_succ]
    congr 1
    ring

theorem binaryValue_byteDigits (v : Byte) : binaryValue 0 (byteDigits v) = some v.toNat := by
  have h := binaryValue_low_bits v 8 0
  rwa [Nat.mul_zero, Nat.zero_add, Nat.mod_eq_of_lt v.isLt] at h

theorem eq_digit_of_mem_byteDigits {v : Byte} {c : Char} (h : c ∈ byteDigits v) : c = '0' ∨ c = '1' := by
  obtain ⟨k, -, rfl⟩ := List.mem_map.1 h
  cases v.getLsbD k
  · exact .inl rfl
  · exact .inr rfl

theorem byteDigits_ne_nil (v : Byte) : byteDigits v ≠ [] := nofun

/-- A line with neither comment nor space is its own text. -/
theorem lineText_eq_self {line : List Char} (h : ∀ c ∈ line, c ≠ '#' ∧ isImageSpace c = false) :
    lineText line = line := by
  have htake : line.takeWhile (· ≠ '#') = line := List.takeWhile_eq_self_iff.2 fun c hc => decide_eq_true (h c hc).1
  have hdrop : ∀ l : List Char, l ⊆ line → l.dropWhile isImageSpace = l := fun l hl =>
    List.dropWhile_eq_self_iff.2 fun hpos => Bool.eq_false_iff.1 (h _ (hl (List.getElem_mem hpos))).2
  rw [lineText, htake, hdrop line (List.Subset.refl line), hdrop line.reverse fun _ => List.mem_reverse.1,
    List.reverse_reverse]

theorem textLines_line_append {line : List Char} (h : '\n' ∉ line) (rest : List Char) :
    textLines (line ++ '\n' :: rest) = line :: textLines rest := by
  induction line with
  | nil => rfl
  | cons c cs ih =>
    obtain ⟨hc, hcs⟩ := not_or.1 (mt List.mem_cons.2 h)
    rw [List.cons_append, textLines, if_neg (Ne.symm hc), ih hcs]

theorem textLines_imageText (image : List Byte) : textLines (imageText image) = image.map byteDigits ++ [[]] := by
  induction image with
  | nil => rfl
  | cons v vs ih =>
    have hline : '\n' ∉ byteDigits v := fun h => absurd (eq_digit_of_mem_byteDigits h) (by decide)
    have htext : imageText (v :: vs) = byteDigits v ++ '\n' :: imageText vs := by
      simp [imageText]
    rw [htext, textLines_line_append hline, ih, List.map_cons, List.cons_append]

theorem literals_imageText (image : List Byte) : literals (textLines (imageText image)) = image.map byteDigits := by
  rw [textLines_imageText]
  induction image with
  | nil => rfl
  | cons v vs ih =>
    have hself : lineText (byteDigits v) = byteDigits v := lineText_eq_self fun c hc => by
      rcases eq_digit_of_mem_byteDigits hc with rfl | rfl <;> decide
    rw [List.map_cons, List.cons_append, literals_cons_of_not_blank (by rw [hself]; exact byteDigits_ne_nil v), hself, ih]

/-! ## The statements on the image's text -/

/-- Settles O48: line by line, and a blank line adds neither a literal nor a byte. -/
theorem textLoadsExactlyWhenEveryLineIsAByte : Obligations.TextLoadsExactlyWhenEveryLineIsAByte :=
  fun _ _ => parseImage_eq_ok_iff.trans (and_congr_right fun _ => parseLines_eq_ok_iff)

/-- Settles O47: the literals of the image's text are the digits of its bytes, and these read as the bytes. -/
theorem imageTextLoadsBackAsTheImage : Obligations.ImageTextLoadsBackAsTheImage := by
  intro image hlen
  refine parseImage_eq_ok_iff.2 ⟨hlen, parseLines_eq_ok_iff.2 ?_⟩
  rw [literals_imageText, List.map_map]
  exact List.map_congr_left fun v _ => binaryValue_byteDigits v

end Sys2Proof.Machine

end

/-! # The fetch-decode-execute loop: what is fetched, when a step exists, where the pc goes, how a run ends
(40_fetch_decode_loop.md)

The pc of R74's table comes from one case split over the instructions; the rest is read off the laws of the step above. -/
section

namespace Sys2Proof.Machine

/-! ## Byte arithmetic as arithmetic modulo 256 (10_state.md R16) -/

theorem add_ofNat_eq_ofNat_mod (v : Byte) (k : Nat) : v + BitVec.ofNat 8 k = BitVec.ofNat 8 ((v.toNat + k) % 256) := by
  apply BitVec.eq_of_toNat_eq
  simp

theorem toNat_sub_one (v : Byte) : (v - 1).toNat = (v.toNat + 255) % 256 := by
  rw [BitVec.sub_eq_add_neg]
  exact BitVec.toNat_add v (-1)

/-! ## The pc after an instruction (R74) -/

/-- The pc after an instruction is the one in R74's table: the sequential instructions add their length, HLT leaves the pc,
and the control transfers take it from a register, the stack or the fall-through. -/
theorem exec_pc {i : Instr} {s t : State} (h : exec i s = .next t) : t.pc.toNat = pcAfter i s := by
  cases i with
  | ldi | add | mlt | cmp | prn | push | pop | nop =>
    obtain rfl := Host.Outcome.next.inj h
    exact BitVec.toNat_add s.pc _
  | jmp | ret | hlt =>
    obtain rfl := Host.Outcome.next.inj h
    rfl
  | call a =>
    rw [execCall_next] at h
    obtain rfl := Host.Outcome.next.inj h
    rw [State.jump_pc, apply_ite BitVec.toNat, toNat_sub_one]
    rfl
  | jeq a =>
    rw [execJeq_next] at h
    obtain rfl := Host.Outcome.next.inj h
    rw [State.jump_pc, apply_ite BitVec.toNat, BitVec.toNat_add]
    rfl
  | jne a =>
    rw [execJne_next] at h
    obtain rfl := Host.Outcome.next.inj h
    cases he : s.e <;> simp [pcAfter, he]

/-! ## The statements -/

/-- Settles O40: HLT and the decode error are all that clears `running`, and by the invariant no fault is recorded before
the step, so the latch tells the two ends apart. -/
theorem runEndsByHltOrDecodeError : Obligations.RunEndsByHltOrDecodeError := by
  intro m s t ⟨_, hlatch⟩ h hhalted
  have hr : s.running = true := exists_stepWith_iff_running.1 ⟨t, h⟩
  have hfault : s.fault = none := by
    by_contra hrecorded
    rw [hlatch hrecorded] at hr
    cases hr
  obtain ⟨-, hstep⟩ := runningIsClearedByHltAndDecodeErrorOnly
  rcases ((hstep m s).2 t h).1 hhalted with hd | hill
  · rw [stepWith_of_decode hr hd, execHlt_next] at h
    obtain rfl := Host.Outcome.next.inj h
    exact .inl ⟨⟨rfl, hfault⟩, hd, rfl⟩
  · obtain rfl := eq_raiseDecodeError_of_stepWith h hill
    exact .inr ⟨⟨rfl, Option.some_ne_none _⟩, hill, rfl⟩

/-- Settles O25: every instruction completes with the pc of the table, and a decode error leaves the pc. -/
theorem everyInstructionSetsThePcOfTheTable : Obligations.EveryInstructionSetsThePcOfTheTable := by
  refine ⟨fun i s => ?_, fun m s hr hill => ⟨_, stepWith_of_illegalOpcode hr hill, State.raiseDecodeError_pc s _ _⟩⟩
  obtain ⟨t, h⟩ := exec_total i s
  exact ⟨t, h, exec_pc h⟩

/-- Settles O9: a running machine steps at legal and illegal opcodes alike, a halted one at neither. -/
theorem stepExistsExactlyWhileRunning : Obligations.StepExistsExactlyWhileRunning :=
  fun _ _ => ⟨exists_stepWith_iff_running, stepWith_halted⟩

/-- Settles O7; the default map is one of the maps. -/
theorem stepRunsTheDecodedInstruction : Obligations.StepRunsTheDecodedInstruction :=
  ⟨fun _ _ _ => stepWith_of_decode, fun _ _ => stepWith_of_decode⟩

/-- Settles O6: the pc's own addition is the one modulo 256. -/
theorem fetchReadsThreeBytesFromPc : Obligations.FetchReadsThreeBytesFromPc := fun s =>
  ⟨State.fetch_op s, congrArg s.readMem (add_ofNat_eq_ofNat_mod s.pc 1),
    congrArg s.readMem (add_ofNat_eq_ofNat_mod s.pc 2)⟩

end Sys2Proof.Machine

end

/-! # Data movement: LDI, PRN, and which registers an instruction can change (41_data_movement.md)

One case split over the instructions gives the registers each leaves as they are; LDI and PRN then take their part of it. -/
section

namespace Sys2Proof.Machine

/-! ## The registers an instruction leaves as they are (10_state.md R11) -/

theorem sameRegsExcept_setReg (s : State) (r : Reg) (v : Byte) : SameRegsExcept [r] s (s.setReg r v) := by
  intro q hq
  rw [State.setReg_getReg, if_neg (List.ne_of_not_mem_cons hq)]

/-- The registers changed by one stretch of work and then by another are among those of both. -/
theorem SameRegsExcept.trans {rs rs' : List Reg} {s t u : State} (h : SameRegsExcept rs s t)
    (h' : SameRegsExcept rs' t u) : SameRegsExcept (rs ++ rs') s u := by
  intro q hq
  obtain ⟨hrs, hrs'⟩ := not_or.1 (mt List.mem_append.2 hq)
  exact (h' q hrs').trans (h q hrs)

/-- An instruction writes its destination operand, or SP, or for POP the one and then the other, or no register. -/
theorem exec_sameRegsExcept {i : Instr} {s t : State} (h : exec i s = .next t) :
    SameRegsExcept (writtenRegs i) s t := by
  cases i with
  | ldi a | add a | mlt a =>
    obtain rfl := Host.Outcome.next.inj h
    exact sameRegsExcept_setReg s (ridx a) _
  | push | call | ret =>
    obtain rfl := Host.Outcome.next.inj h
    exact sameRegsExcept_setReg s 7 _
  | pop a =>
    obtain rfl := Host.Outcome.next.inj h
    exact (sameRegsExcept_setReg s (ridx a) _).trans (sameRegsExcept_setReg _ 7 _)
  | prn | cmp | jmp | jeq | jne | hlt | nop =>
    obtain rfl := Host.Outcome.next.inj h
    exact fun _ _ => rfl

/-! ## The statements -/

/-- Settles O32: each instruction writes only the registers of its rule, and the DecodeError writes none. -/
theorem registersChangeOnlyWhereNamed : Obligations.RegistersChangeOnlyWhereNamed := by
  refine ⟨fun _ _ _ => exec_sameRegsExcept, fun m s t h hill r _ => ?_⟩
  rw [eq_raiseDecodeError_of_stepWith h hill, State.raiseDecodeError_getReg]

/-- Settles O11: the next state of LDI is one register write and a jump past its three bytes. -/
theorem ldiLoadsItsLiteral : Obligations.LdiLoadsItsLiteral := by
  intro m a imm s
  have h := execLdi_next a imm s
  refine ⟨rfl, _, h, ?_, exec_pc h, exec_sameRegsExcept h, fun _ => rfl, rfl, rfl, rfl, rfl⟩
  rw [State.jump_getReg, State.setReg_getReg, if_pos rfl]

/-- Settles O12: the next state of PRN is the emission of one byte and a jump past its two bytes. -/
theorem prnEmitsItsRegister : Obligations.PrnEmitsItsRegister := by
  intro m a s
  have h := execPrn_next a s
  exact ⟨rfl, _, h, (exec_effect h).out, exec_pc h, exec_sameRegsExcept h, fun _ => rfl, rfl, rfl, rfl⟩

end Sys2Proof.Machine

end

/-! # The ALU: ADD, MLT, CMP, and the branches that read CMP's flag (42_alu.md)

What each leaves in its destination, a register or E, is said once; read unsigned it gives the rules R91 to R93, read in
two's complement R95, and E as the branches read it gives R109's property. -/
section

namespace Sys2Proof.Machine

/-! ## The destination of ADD, MLT and CMP -/

theorem execAdd_getReg {a b : RegOperand} {s t : State} (h : exec (.add a b) s = .next t) :
    t.getReg (ridx a) = s.getReg (ridx a) + s.getReg (ridx b) := by
  rw [execAdd_next] at h
  obtain rfl := Host.Outcome.next.inj h
  rw [State.jump_getReg, State.setReg_getReg, if_pos rfl]

theorem execMlt_getReg {a b : RegOperand} {s t : State} (h : exec (.mlt a b) s = .next t) :
    t.getReg (ridx a) = s.getReg (ridx a) * s.getReg (ridx b) := by
  rw [execMlt_next] at h
  obtain rfl := Host.Outcome.next.inj h
  rw [State.jump_getReg, State.setReg_getReg, if_pos rfl]

theorem execCmp_e_iff {a b : RegOperand} {s t : State} (h : exec (.cmp a b) s = .next t) :
    t.e = true ↔ s.getReg (ridx a) = s.getReg (ridx b) := by
  rw [(exec_effect h).e]
  exact decide_eq_true_iff

/-! ## Where a conditional jump goes for each value of E (44_control_transfer.md R109, R110) -/

theorem execJeq_pc_of_set {a : RegOperand} {s t : State} (h : exec (.jeq a) s = .next t) (he : s.e = true) :
    t.pc = s.getReg (ridx a) := by
  rw [execJeq_next] at h
  obtain rfl := Host.Outcome.next.inj h
  exact if_pos he

theorem execJeq_pc_of_clear {a : RegOperand} {s t : State} (h : exec (.jeq a) s = .next t) (he : s.e = false) :
    t.pc.toNat = (s.pc.toNat + 2) % 256 :=
  (exec_pc h).trans (if_neg (Bool.eq_false_iff.1 he))

theorem execJne_pc_of_clear {a : RegOperand} {s t : State} (h : exec (.jne a) s = .next t) (he : s.e = false) :
    t.pc = s.getReg (ridx a) := by
  rw [execJne_next] at h
  obtain rfl := Host.Outcome.next.inj h
  exact if_neg (Bool.eq_false_iff.1 he)

theorem execJne_pc_of_set {a : RegOperand} {s t : State} (h : exec (.jne a) s = .next t) (he : s.e = true) :
    t.pc.toNat = (s.pc.toNat + 2) % 256 :=
  (exec_pc h).trans (if_neg (ne_false_of_eq_true he))

/-! ## The statements -/

/-- Settles O46: sum and product modulo 256 do not depend on the reading of the bytes, and the signed reading is one to one. -/
theorem arithmeticAgreesWithTwosComplement : Obligations.ArithmeticAgreesWithTwosComplement := by
  intro a b s
  obtain ⟨t, ht⟩ := exec_total (.add a b) s
  obtain ⟨u, hu⟩ := exec_total (.mlt a b) s
  obtain ⟨v, hv⟩ := exec_total (.cmp a b) s
  refine ⟨t, u, v, ht, hu, hv, ?_, ?_, (execCmp_e_iff hv).trans BitVec.toInt_inj.symm⟩
  · rw [execAdd_getReg ht]
    exact BitVec.toInt_add _ _
  · rw [execMlt_getReg hu]
    exact BitVec.toInt_mul _ _

/-- Settles O13: the next state of ADD is one register write and a jump past its three bytes. -/
theorem addWritesTheSumModulo256 : Obligations.AddWritesTheSumModulo256 := by
  intro m a b s
  have h := execAdd_next a b s
  refine ⟨rfl, _, h, ?_, exec_pc h, exec_sameRegsExcept h, fun _ => rfl, rfl, rfl, rfl, rfl⟩
  rw [execAdd_getReg h]
  exact BitVec.toNat_add _ _

/-- Settles O14: the next state of MLT is one register write and a jump past its three bytes. -/
theorem mltWritesTheProductModulo256 : Obligations.MltWritesTheProductModulo256 := by
  intro m a b s
  have h := execMlt_next a b s
  refine ⟨rfl, _, h, ?_, exec_pc h, exec_sameRegsExcept h, fun _ => rfl, rfl, rfl, rfl, rfl⟩
  rw [execMlt_getReg h]
  exact BitVec.toNat_mul _ _

/-- Settles O15: the next state of CMP is one write of E and a jump past its three bytes. -/
theorem cmpSetsEqualFromItsRegisters : Obligations.CmpSetsEqualFromItsRegisters := by
  intro m a b s
  have h := execCmp_next a b s
  exact ⟨rfl, _, h, (execCmp_e_iff h).trans BitVec.toNat_inj.symm, exec_pc h, exec_sameRegsExcept h, fun _ => rfl,
    rfl, rfl, rfl⟩

/-- Settles O45: CMP leaves the comparison in E and the target register as it was, and the branches read both. -/
theorem compareThenBranchFollowsEquality : Obligations.CompareThenBranchFollowsEquality := by
  intro a b c s
  obtain ⟨t, ht⟩ := exec_total (.cmp a b) s
  obtain ⟨u, hu⟩ := exec_total (.jeq c) t
  obtain ⟨v, hv⟩ := exec_total (.jne c) t
  have htarget : t.getReg (ridx c) = s.getReg (ridx c) := exec_sameRegsExcept ht (ridx c) List.not_mem_nil
  refine ⟨t, u, v, ht, hu, hv, fun heq => ?_, fun hne => ?_⟩
  · have he : t.e = true := (execCmp_e_iff ht).2 heq
    exact ⟨(execJeq_pc_of_set hu he).trans htarget, execJne_pc_of_set hv he⟩
  · have he : t.e = false := Bool.eq_false_iff.2 (mt (execCmp_e_iff ht).1 hne)
    exact ⟨execJeq_pc_of_clear hu he, (execJne_pc_of_clear hv he).trans htarget⟩

end Sys2Proof.Machine

end

/-! # The stack: PUSH, POP, and the value that goes through it (43_stack.md)

What each leaves in SP, and what it leaves in the cell or the register it moves its byte to, is said once; R102's property
puts the two together. -/
section

namespace Sys2Proof.Machine

/-! ## The stack pointer and the cell or register written -/

theorem decSp_sp (s : State) : s.decSp.sp = s.sp - 1 := by
  rw [State.decSp_eq, State.sp_eq, State.setReg_getReg, if_pos rfl, State.sp_eq]

theorem execPush_sp {a : RegOperand} {s t : State} (h : exec (.push a) s = .next t) : t.sp = s.decSp.sp := by
  obtain rfl := Host.Outcome.next.inj h
  rfl

/-- PUSH reads its register after the decrement, so R7 stores the new SP (R101, D9). -/
theorem execPush_readMem {a : RegOperand} {s t : State} (h : exec (.push a) s = .next t) :
    t.readMem s.decSp.sp = if ridx a = 7 then s.decSp.sp else s.getReg (ridx a) :=
  (exec_readMem h s.decSp.sp).trans (if_pos rfl)

/-- POP increments SP after the load, so for R7 it increments the byte loaded (R102, D9). -/
theorem execPop_sp {a : RegOperand} {s t : State} (h : exec (.pop a) s = .next t) :
    t.sp = (if ridx a = 7 then s.readMem s.sp else s.sp) + 1 := by
  rw [execPop_next] at h
  obtain rfl := Host.Outcome.next.inj h
  rw [State.sp_eq, State.jump_getReg, State.setReg_getReg, if_pos rfl, State.sp_eq]

theorem execPop_getReg {a : RegOperand} {s t : State} (h : exec (.pop a) s = .next t) (ha : ridx a ≠ 7) :
    t.getReg (ridx a) = s.readMem s.sp := by
  rw [execPop_next] at h
  obtain rfl := Host.Outcome.next.inj h
  rw [State.jump_getReg, State.setReg_getReg, if_neg ha, State.setReg_getReg, if_pos rfl, State.sp_eq]

/-! ## The statements -/

/-- Settles O16: every cell after an instruction is known, and the other state is kept. -/
theorem pushStoresBelowTheStackPointer : Obligations.PushStoresBelowTheStackPointer := by
  intro m a s
  have h := execPush_next a s
  have hsp : s.decSp.sp.toNat = (s.sp.toNat + 255) % 256 := by rw [decSp_sp, toNat_sub_one]
  have hmem : SameMemoryExcept s.decSp.sp s _ := fun addr haddr =>
    (exec_readMem h addr).trans (memAfter_of_ne (.push a) s haddr)
  exact ⟨rfl, _, h, hsp, execPush_sp h, execPush_readMem h, exec_pc h, exec_sameRegsExcept h, hmem, rfl, rfl, rfl, rfl⟩

/-- Settles O17: the operand R7 and the others differ in what SP is incremented from. -/
theorem popLoadsTheTopOfStack : Obligations.PopLoadsTheTopOfStack := by
  intro m a s
  have h := execPop_next a s
  refine ⟨rfl, _, h, ?_, exec_pc h, exec_sameRegsExcept h, fun _ => rfl, rfl, rfl, rfl, rfl⟩
  by_cases ha : ridx a = 7
  · rw [if_pos ha, execPop_sp h, if_pos ha]
    exact BitVec.toNat_add _ 1
  · rw [if_neg ha]
    refine ⟨execPop_getReg h ha, ?_⟩
    rw [execPop_sp h, if_neg ha]
    exact BitVec.toNat_add _ 1

/-- Settles O42: POP finds at SP the byte PUSH stored there, and undoes the decrement unless its operand is R7. -/
theorem pushThenPopMovesTheValue : Obligations.PushThenPopMovesTheValue := by
  intro a b s
  obtain ⟨t, ht⟩ := exec_total (.push a) s
  obtain ⟨u, hu⟩ := exec_total (.pop b) t
  have htop : t.readMem t.sp = if ridx a = 7 then s.sp - 1 else s.getReg (ridx a) := by
    rw [execPush_sp ht, execPush_readMem ht, decSp_sp]
  have hkept : ridx b ≠ 7 → u.sp = s.sp := fun hb => by
    rw [execPop_sp hu, if_neg hb, execPush_sp ht, decSp_sp, sub_add_cancel]
  have hpopped : ridx b = 7 → u.sp = t.readMem t.sp + 1 := fun hb => by rw [execPop_sp hu, if_pos hb]
  refine ⟨t, u, ht, hu, fun ha hb => ⟨?_, hkept hb⟩, fun ha hb => ⟨?_, hkept hb⟩, fun ha hb => ?_, fun ha hb => ?_⟩
  · rw [execPop_getReg hu hb, htop, if_neg ha]
  · rw [execPop_getReg hu hb, htop, if_pos ha]
  · rw [hpopped hb, htop, if_neg ha]
  · rw [hpopped hb, htop, if_pos ha, sub_add_cancel]

end Sys2Proof.Machine

end

/-! # Control transfer: CALL, RET, JMP, JEQ and JNE (44_control_transfer.md)

The pcs of R74's table are said again as the bytes they are, together with what CALL and RET make of SP and its cell. RET
is characterised by SP and the cell at SP alone, so it undoes a PUSH and a CALL alike. -/
section

namespace Sys2Proof.Machine

/-! ## The target of each transfer, the stack pointer, and the return address on the stack -/

theorem execCall_sp {a : RegOperand} {s t : State} (h : exec (.call a) s = .next t) : t.sp = s.decSp.sp := by
  obtain rfl := Host.Outcome.next.inj h
  rfl

/-- CALL reads its register after the push, so R7 gives the new SP (R106, D9). -/
theorem execCall_pc {a : RegOperand} {s t : State} (h : exec (.call a) s = .next t) :
    t.pc = if ridx a = 7 then s.decSp.sp else s.getReg (ridx a) := by
  rw [execCall_next] at h
  obtain rfl := Host.Outcome.next.inj h
  rw [State.jump_pc, decSp_sp, State.sp_eq]

theorem execCall_readMem_toNat {a : RegOperand} {s t : State} (h : exec (.call a) s = .next t) :
    (t.readMem s.decSp.sp).toNat = (s.pc.toNat + 2) % 256 := by
  rw [exec_readMem h, memAfter, if_pos rfl]
  exact BitVec.toNat_ofNat (s.pc.toNat + 2) 8

theorem execRet_sp {s t : State} (h : exec .ret s = .next t) : t.sp = s.sp + 1 := by
  rw [execRet_next] at h
  obtain rfl := Host.Outcome.next.inj h
  rw [State.sp_eq, State.jump_getReg, State.setReg_getReg, if_pos rfl, State.sp_eq]

theorem execRet_pc {s t : State} (h : exec .ret s = .next t) : t.pc = s.readMem s.sp :=
  BitVec.eq_of_toNat_eq (exec_pc h)

theorem execJmp_pc {a : RegOperand} {s t : State} (h : exec (.jmp a) s = .next t) : t.pc = s.getReg (ridx a) :=
  BitVec.eq_of_toNat_eq (exec_pc h)

/-- RET undoes the decrement of whatever instruction moved SP one down (R100, R107). -/
theorem execRet_sp_of_decSp {s t u : State} (hsp : t.sp = s.decSp.sp) (h : exec .ret t = .next u) : u.sp = s.sp := by
  rw [execRet_sp h, hsp, decSp_sp, sub_add_cancel]

/-! ## The statements -/

/-- Settles O18: every cell after an instruction is known, and the other state is kept. -/
theorem callPushesTheReturnAddressAndJumps : Obligations.CallPushesTheReturnAddressAndJumps := by
  intro m a s
  have h := execCall_next a s
  have hsp : s.decSp.sp.toNat = (s.sp.toNat + 255) % 256 := by rw [decSp_sp, toNat_sub_one]
  have hmem : SameMemoryExcept s.decSp.sp s _ := fun addr haddr =>
    (exec_readMem h addr).trans (memAfter_of_ne (.call a) s haddr)
  exact ⟨rfl, _, h, hsp, execCall_sp h, execCall_readMem_toNat h, execCall_pc h, exec_sameRegsExcept h, hmem,
    rfl, rfl, rfl, rfl⟩

/-- Settles O44: RET reads SP and the cell at SP, and these hold what CALL left there. -/
theorem retReturnsAfterTheCall : Obligations.RetReturnsAfterTheCall := by
  intro a s
  obtain ⟨t, ht⟩ := exec_total (.call a) s
  refine ⟨t, ht, fun u hsp hcell => ?_⟩
  obtain ⟨v, hv⟩ := exec_total .ret u
  refine ⟨v, hv, ?_, execRet_sp_of_decSp (hsp.trans (execCall_sp ht)) hv⟩
  rw [execRet_pc hv, hsp, hcell, execCall_sp ht, execCall_readMem_toNat ht]

/-- Settles O19: the next state of RET is one register write and a jump to the byte at SP. -/
theorem retPopsTheProgramCounter : Obligations.RetPopsTheProgramCounter := by
  intro m s
  have h := execRet_next s
  refine ⟨rfl, _, h, execRet_pc h, ?_, exec_sameRegsExcept h, fun _ => rfl, rfl, rfl, rfl, rfl⟩
  rw [execRet_sp h]
  exact BitVec.toNat_add s.sp 1

/-- Settles O20: the next state of JMP is a jump. -/
theorem jmpGoesToItsRegister : Obligations.JmpGoesToItsRegister := by
  intro m a s
  have h := execJmp_next a s
  exact ⟨rfl, _, h, execJmp_pc h, exec_sameRegsExcept h, fun _ => rfl, rfl, rfl, rfl, rfl⟩

/-- Settles O21: the next state of JEQ is a jump, to one of two targets by E. -/
theorem jeqJumpsWhenEqualIsSet : Obligations.JeqJumpsWhenEqualIsSet := by
  intro m a s
  have h := execJeq_next a s
  exact ⟨rfl, _, h, execJeq_pc_of_set h, execJeq_pc_of_clear h, exec_sameRegsExcept h, fun _ => rfl,
    rfl, rfl, rfl, rfl⟩

/-- Settles O22: for each value of E, JNE has the target JEQ does not have. -/
theorem jneJumpsWhenEqualIsClear : Obligations.JneJumpsWhenEqualIsClear := by
  intro m a s
  have h := execJne_next a s
  have hjeq := execJeq_next a s
  exact ⟨rfl, _, _, h, hjeq, fun he => ⟨execJne_pc_of_clear h he, execJeq_pc_of_clear hjeq he⟩,
    fun he => ⟨execJne_pc_of_set h he, execJeq_pc_of_set hjeq he⟩, exec_sameRegsExcept h, fun _ => rfl,
    rfl, rfl, rfl, rfl⟩

/-- Settles O43: RET finds at SP the byte PUSH stored there, and undoes the decrement. -/
theorem pushThenRetJumpsToTheRegister : Obligations.PushThenRetJumpsToTheRegister := by
  intro a s
  obtain ⟨t, ht⟩ := exec_total (.push a) s
  obtain ⟨u, hu⟩ := exec_total .ret t
  have hpc : u.pc = if ridx a = 7 then s.sp - 1 else s.getReg (ridx a) := by
    rw [execRet_pc hu, execPush_sp ht, execPush_readMem ht, decSp_sp]
  exact ⟨t, u, ht, hu, fun ha => hpc.trans (if_neg ha), fun ha => hpc.trans (if_pos ha),
    execRet_sp_of_decSp (execPush_sp ht) hu⟩

end Sys2Proof.Machine

end

/-! # System: HLT and NOP (45_system.md)

The next state of HLT is the state with `running` cleared and that of NOP a jump to the next byte, so the frames are those
of these two state operations; that HLT ends the run is R70's law that only a running machine steps. -/
section

namespace Sys2Proof.Machine

/-- The state HLT leaves has no step under any map (R115, R70). -/
theorem not_exists_stepWith_halt (m : OpcodeMap) (s : State) : ¬ ∃ t, stepWith m s.halt = .next t := by
  rw [exists_stepWith_iff_running, State.halt_running]
  exact Bool.false_ne_true

/-! ## The statements -/

/-- Settles O23: HLT clears `running` and nothing else, and a machine that is not running takes no step. -/
theorem hltHaltsTheMachineForGood : Obligations.HltHaltsTheMachineForGood := by
  intro m n s
  have h := execHlt_next s
  exact ⟨rfl, _, h, State.halt_running s, State.halt_pc s, State.halt_fault s, exec_sameRegsExcept h, fun _ => rfl,
    rfl, rfl, not_exists_stepWith_halt n s⟩

/-- Settles O24: the next state of NOP is a jump past its one byte. -/
theorem nopAdvancesByOne : Obligations.NopAdvancesByOne := by
  intro m s
  have h := execNop_next s
  exact ⟨rfl, _, h, exec_pc h, exec_sameRegsExcept h, fun _ => rfl, rfl, rfl, rfl, rfl⟩

end Sys2Proof.Machine

end

/-! # The DecodeError: the one exception of the core (60_exceptions.md)

A running machine at an unmapped byte steps to `State.raiseDecodeError`, so the effect of the exception and its frame are
those of this one state operation. -/
section

namespace Sys2Proof.Machine

/-- Settles O10: the next state is the DecodeError raised at the pc for the byte there, and each clause is that
operation's own law (60_exceptions.md R121). -/
theorem illegalOpcodeTakesTheDecodeError : Obligations.IllegalOpcodeTakesTheDecodeError := by
  intro m s hr hill
  have h := stepWith_of_illegalOpcode hr hill
  exact ⟨_, h, State.raiseDecodeError_running s _ _, State.raiseDecodeError_fault s _ _, State.raiseDecodeError_pc s _ _,
    fun r _ => State.raiseDecodeError_getReg s _ _ r, State.raiseDecodeError_readMem s _ _,
    State.raiseDecodeError_e s _ _, State.raiseDecodeError_out s _ _⟩

end Sys2Proof.Machine

end

/-! # Reset and hazards: boot (70_reset_and_hazards.md)

Boot is one write of the image from address 0 over the reset state, so what it leaves is what `State.writeBytes` leaves:
the image cell by cell, memory alone changed, and the canonical form kept. -/
section

namespace Sys2Proof.Machine

/-! ## When boot refuses, and the state it answers -/

theorem boot_eq_none_iff {image : List Byte} : State.boot image = none ↔ 256 < image.length := by
  rw [State.boot, ite_eq_right_iff, memSize_eq, ← Nat.not_le]
  exact forall_congr' fun _ => iff_of_false (Option.some_ne_none _) id

/-- A boot that is not refused writes an image that fits into memory over the reset state. -/
theorem boot_eq_some_iff {image : List Byte} {s : State} :
    State.boot image = some s ↔ image.length ≤ 256 ∧ State.reset.writeBytes Config.imageBase image = s := by
  rw [State.boot, Option.ite_none_right_eq_some, memSize_eq, Option.some_inj]

/-! ## What the image leaves in memory and in the rest of the state -/

/-- Cell `k` holds byte `k` of an image that fits, and its reset contents beyond the image's end (R141, R25). -/
theorem writeImage_readMem {image : List Byte} (hlen : image.length ≤ 256) {k : Nat} (hk : k < 256) :
    (State.reset.writeBytes Config.imageBase image).readMem (BitVec.ofNat 8 k) = image.getD k 0x00 := by
  have hread := State.writeBytes_readMem image State.reset 0 (by rwa [Nat.zero_add]) k hk
  refine hread.trans ?_
  by_cases hin : k < image.length
  · rw [if_pos ⟨Nat.zero_le k, by rwa [Nat.zero_add]⟩, Nat.sub_zero]
  · have hreset : State.reset.readMem (BitVec.ofNat 8 k) = 0x00 := rfl
    rw [if_neg (by rw [Nat.zero_add]; exact fun h => hin h.2), hreset,
      List.getD_eq_default _ _ (Nat.not_lt.1 hin)]

/-- Writing a byte sequence keeps the invariant: the canonical form is kept, and neither latch nor `running` is written. -/
theorem writeBytes_inv {s : State} (hinv : s.inv) (addr : Byte) (bytes : List Byte) : (s.writeBytes addr bytes).inv := by
  obtain ⟨hwf, hlatch⟩ := hinv
  have hrest := State.writeBytes_rest bytes s addr
  have hfault : (s.writeBytes addr bytes).fault = s.fault := (congrArg State.fault hrest :)
  have hrunning : (s.writeBytes addr bytes).running = s.running := (congrArg State.running hrest :)
  refine ⟨State.writeBytes_wf bytes s addr hwf, fun h => ?_⟩
  rw [hfault] at h
  rw [hrunning]
  exact hlatch h

/-! ## The statement -/

/-- Settles O39: the state boot answers is the reset state with the image written, and each clause is a law of that write. -/
theorem bootPlacesTheImageFromZero : Obligations.BootPlacesTheImageFromZero := by
  intro image
  refine ⟨boot_eq_none_iff, fun s hboot => ?_⟩
  obtain ⟨hlen, rfl⟩ := boot_eq_some_iff.1 hboot
  exact ⟨fun _ => writeImage_readMem hlen, State.writeBytes_rest image State.reset Config.imageBase,
    writeBytes_inv resetMeetsTheInvariant Config.imageBase image⟩

end Sys2Proof.Machine

end
